-- ==== Sys2Proof/Word.lean ====
section
/-! DEFINITION. The word types of the block: the widths the spec fixes (00_scope.md R5, R16). -/

namespace Sys2Proof

/-- One 8-bit byte: a buffer byte, a message byte or a parity element. -/
abbrev Byte := BitVec 8

/-- A 16-bit dimension, `rows` or `cols` (10_state.md R21). -/
abbrev Half := BitVec 16

/-- A 32-bit value: a checksum, a row-parity sum, RESULT. -/
abbrev Word := BitVec 32

/-- A 48-bit command word (30_encoding.md R70). -/
abbrev CmdWord := BitVec 48

/-- The 35 bits of the locator register LOC (10_state.md R29). -/
abbrev LocWord := BitVec 35

end Sys2Proof
end

