-- ==== Sys2Proof/Syntax.lean ====
section
/-! DEFINITION. The eight commands as syntax: one constructor per row of spec/opcode_table.json (30_encoding.md R71, R72). -/

namespace Sys2Proof

/-- A header-slot operand as the command word carries it: 4 bits, legal when below `NSLOT = 2` (R71, R73). -/
abbrev SlotField := BitVec 4

/-- The commands of 00_scope.md R10, with the operands of 30_encoding.md R71. A field a command does not
use is no operand: it is zero in the word. -/
inductive Instr where
  | hclr (ha : SlotField)
  | pgen (ha : SlotField) (rows cols : Half)
  | csum (ha : SlotField)
  | cchk (ha : SlotField)
  | hcmp (ha hb : SlotField)
  | hser (ha : SlotField)
  | hdes (ha : SlotField)
  | rpr (ha hb : SlotField)
deriving DecidableEq, Repr

end Sys2Proof
end

