-- ==== Sys2Proof/WellFormed.lean ====
section
/-! DEFINITION. When a command is well formed: every slot field it uses names a slot (30_encoding.md R73 (c)). -/

namespace Sys2Proof

/-- A slot field names one of the `NSLOT = 2` slots. -/
def SlotField.legal (h : SlotField) : Bool := h.toNat < 2

/-- The condition R73 (c) puts on each command. The immediates of `PGEN` are unrestricted: a zero
dimension decodes legally and fails in the command (R74). -/
def Instr.wellFormed : Instr → Bool
  | .hclr ha => SlotField.legal ha
  | .pgen ha _ _ => SlotField.legal ha
  | .csum ha => SlotField.legal ha
  | .cchk ha => SlotField.legal ha
  | .hcmp ha hb => SlotField.legal ha && SlotField.legal hb
  | .hser ha => SlotField.legal ha
  | .hdes ha => SlotField.legal ha
  | .rpr ha hb => SlotField.legal ha && SlotField.legal hb

end Sys2Proof
end

