-- ==== Sys2Proof/Decode.lean ====
section
/-! DEFINITION. The command word's fields, the decoder, total on all 2^48 words, and the encoder (30_encoding.md R70 to R74). -/

namespace Sys2Proof

/-- Why a word is illegal: the three cases of R73. All three have the one outcome R73 gives. -/
inductive DecodeError where
  /-- R73 (a): `op` is not one of `0x01 .. 0x08`. -/
  | badOpcode
  /-- R73 (b): a field the command does not use is not zero. -/
  | unusedFieldNotZero
  /-- R73 (c): a slot field the command uses is 2 or more. -/
  | badSlot
deriving DecidableEq, Repr

/-- `op = cmd[47:40]` (R70). -/
def opField (w : CmdWord) : BitVec 8 := w.extractLsb' 40 8

/-- `ha = cmd[39:36]` (R70). -/
def haField (w : CmdWord) : SlotField := w.extractLsb' 36 4

/-- `hb = cmd[35:32]` (R70). -/
def hbField (w : CmdWord) : SlotField := w.extractLsb' 32 4

/-- `rows = cmd[31:16]` (R70). -/
def rowsField (w : CmdWord) : Half := w.extractLsb' 16 16

/-- `cols = cmd[15:0]` (R70). -/
def colsField (w : CmdWord) : Half := w.extractLsb' 0 16

/-- The decoder of the command words that use only `ha`: `hb`, `rows` and `cols` must be zero (R71). -/
def decodeOneSlot (w : CmdWord) (mk : SlotField → Instr) : Except DecodeError Instr :=
  if hbField w ≠ 0 ∨ rowsField w ≠ 0 ∨ colsField w ≠ 0 then .error .unusedFieldNotZero
  else if (haField w).legal then .ok (mk (haField w))
  else .error .badSlot

/-- The decoder of the command words that use `ha` and `hb`: `rows` and `cols` must be zero (R71). -/
def decodeTwoSlots (w : CmdWord) (mk : SlotField → SlotField → Instr) : Except DecodeError Instr :=
  if rowsField w ≠ 0 ∨ colsField w ≠ 0 then .error .unusedFieldNotZero
  else if (haField w).legal && (hbField w).legal then .ok (mk (haField w) (hbField w))
  else .error .badSlot

/-- The decoder of `PGEN`: `ha` and the two immediates are used, `hb` must be zero (R71). -/
def decodePgen (w : CmdWord) : Except DecodeError Instr :=
  if hbField w ≠ 0 then .error .unusedFieldNotZero
  else if (haField w).legal then .ok (.pgen (haField w) (rowsField w) (colsField w))
  else .error .badSlot

/-- The decoding procedure of R74. -/
def decode (w : CmdWord) : Except DecodeError Instr :=
  if opField w = 0x01 then decodeOneSlot w .hclr
  else if opField w = 0x02 then decodePgen w
  else if opField w = 0x03 then decodeOneSlot w .csum
  else if opField w = 0x04 then decodeOneSlot w .cchk
  else if opField w = 0x05 then decodeTwoSlots w .hcmp
  else if opField w = 0x06 then decodeOneSlot w .hser
  else if opField w = 0x07 then decodeOneSlot w .hdes
  else if opField w = 0x08 then decodeTwoSlots w .rpr
  else .error .badOpcode

/-- Format `C` (R70): the five fields side by side, `op` in the upper bits. -/
def formatC (op : BitVec 8) (ha hb : SlotField) (rows cols : Half) : CmdWord :=
  op ++ ha ++ hb ++ rows ++ cols

/-- The word of a command, from the table of R71: a field the command does not use is zero. -/
def encode : Instr → CmdWord
  | .hclr ha => formatC 0x01 ha 0 0 0
  | .pgen ha rows cols => formatC 0x02 ha 0 rows cols
  | .csum ha => formatC 0x03 ha 0 0 0
  | .cchk ha => formatC 0x04 ha 0 0 0
  | .hcmp ha hb => formatC 0x05 ha hb 0 0
  | .hser ha => formatC 0x06 ha 0 0 0
  | .hdes ha => formatC 0x07 ha 0 0 0
  | .rpr ha hb => formatC 0x08 ha hb 0 0

/-- The command word whose low `nbits` bits are those of `w` and whose other bits are zero. The word is
presented on a parallel port and has no byte order (R70), so bit `n` of the table's number is `cmd[n]`. -/
def tableWord (nbits w : Nat) : CmdWord := BitVec.ofNat 48 (w % 2 ^ nbits)

/-- The command the decoder reads from a row of the opcode table; no command is longer than 48 bits. -/
def decodeTableWord (nbits w : Nat) : Option Instr :=
  if nbits ≤ 48 then (decode (tableWord nbits w)).toOption else none

end Sys2Proof
end

