-- ==== Sys2Proof/Config.lean ====
section
/-! DEFINITION. What one implementation fixes (00_scope.md R5) and the values the spec leaves free (93_implementation_defined.md U6). -/

namespace Sys2Proof

/-- The byte order of the wire integers, parameter `WIRE_ENDIAN` (20_memory.md R44). -/
inductive Endian where
  | little
  | big
deriving DecidableEq, Repr

/-- The open parameters of the hardware (00_scope.md R5). They are fixed for a machine: no step changes them. -/
structure Config where
  maxRows : Nat
  maxCols : Nat
  wireEndian : Endian
deriving DecidableEq, Repr

namespace Config

/-- The default column of the table of R5. -/
def standard : Config := { maxRows := 65535, maxCols := 65535, wireEndian := .little }

/-- `BUF_BYTES = MAX_ROWS * MAX_COLS` (R5). -/
def bufBytes (c : Config) : Nat := c.maxRows * c.maxCols

/-- `MSG_BYTES = 20 + MAX_ROWS + MAX_COLS` (R5). -/
def msgBytes (c : Config) : Nat := 20 + c.maxRows + c.maxCols

/-- The parameters are in the ranges of R5. -/
abbrev inRange (c : Config) : Prop :=
  1 ≤ c.maxRows ∧ c.maxRows ≤ 65535 ∧ 1 ≤ c.maxCols ∧ c.maxCols ≤ 65535

/-- The unspecified byte of BUF at an address, after a given number of reset events: any value, fixed
until someone writes the byte (93 U6, log entry 2). Nothing is known of it. -/
opaque freeBuf (epoch : Nat) (a : Nat) : Byte

/-- The unspecified byte of MSG at an address, after a given number of reset events (93 U6, log entry 2). -/
opaque freeMsg (epoch : Nat) (a : Nat) : Byte

end Config

end Sys2Proof
end

