-- ==== Sys2Proof/Machine/State.lean ====
section
/-! DEFINITION. The state of the block as plain data (10_state.md), the host's moves as data (20_memory.md R48 to R52), the
reasons a step can stop, and the state after reset (R32). -/

namespace Sys2Proof.Machine

/-- A header slot, `H[0]` or `H[1]` (10_state.md R20). -/
inductive Slot where
  | h0
  | h1
deriving DecidableEq, Repr

/-- A header value: the five fields of 10_state.md R21. `rp` and `cp` are sequences, not arrays with a tail (R22). -/
structure Header where
  checksum : Word
  rows : Half
  cols : Half
  rp : List Byte
  cp : List Byte
deriving DecidableEq, Repr

/-- `EMPTY`, the empty placeholder (40_parity_generator.md R106). -/
def Header.empty : Header := { checksum := 0, rows := 0, cols := 0, rp := [], cp := [] }

/-- The bytes of BUF or of MSG written since reset: addresses strictly rising (log entry 3). A byte that is
not listed has its unspecified value (93 U6). -/
abbrev Memory := List Host.Cell

/-- The status codes of 30_encoding.md R80, by name; the numbers are in Machine/Flags.lean. -/
inductive Code where
  | ok
  | desPrefixMismatch
  | desDimBound
  | desCapacity
  | desRowsumMismatch
  | desChecksumMismatch
  | rprBadChecksum
  | rprDimMismatch
  | rprNoColumn
  | rprMultiColumn
  | rprNoRow
  | rprMultiRow
  | rprMultiBit
  | errIllegalCmd
  | errBadDim
deriving DecidableEq, Repr

/-- One move of the host (20_memory.md R48 to R52, 10_state.md R33) or one reset event (70 R230, R232). -/
inductive HostMove where
  /-- Present a command word (R52). -/
  | command (w : CmdWord)
  /-- Write one byte of BUF (R48). -/
  | writeBuf (a : Nat) (v : Byte)
  /-- Read one byte of BUF (R49). -/
  | readBuf (a : Nat)
  /-- Write one byte of MSG (R50). -/
  | writeMsg (a : Nat) (v : Byte)
  /-- Read one byte of MSG (R51). -/
  | readMsg (a : Nat)
  /-- Read STATUS (R27, R52). -/
  | readStatus
  /-- Read RESULT (R28, R52). -/
  | readResult
  /-- Read LOC (R29, R52). -/
  | readLoc
  /-- Read `H[h].checksum` (R33). -/
  | readChecksum (h : Slot)
  /-- Read `H[h].rows` (R33). -/
  | readRows (h : Slot)
  /-- Read `H[h].cols` (R33). -/
  | readCols (h : Slot)
  /-- Read `H[h].rp[i]` (R33). -/
  | readRp (h : Slot) (i : Nat)
  /-- Read `H[h].cp[j]` (R33). -/
  | readCp (h : Slot) (j : Nat)
  /-- The reset event while the block is idle (70 R230). -/
  | reset
  /-- Present a command word and reset before the command ends (70 R232). -/
  | resetDuring (w : CmdWord)
deriving DecidableEq, Repr

/-- What a host read gave, at the width of what was read. -/
inductive Answer where
  | byte (v : Byte)
  | half (v : Half)
  | word (v : Word)
  | loc (v : LocWord)
deriving DecidableEq, Repr

/-- The faults: accesses of a command to an address the spec says does not exist (20_memory.md R47, R57).
No state a run reaches raises one (log entry 10). -/
inductive Fault where
  /-- Raised by `RPR` when the located byte is at or above `BUF_BYTES`. Safe: the model stops. -/
  | bufOutOfRange (a : Nat)
  /-- Raised by `HSER` when the message does not fit into `MSG_BYTES`. Safe: the model stops. -/
  | msgOutOfRange (n : Nat)
deriving DecidableEq, Repr

/-- The refusals: host moves the spec does not admit, so that the model gives them no step (log entry 9). -/
inductive Refusal where
  /-- Raised by an arm of `exec` whose command has no meaning yet. Safe: the model stops. -/
  | notModelled (mnemonic : String)
  /-- A host access to BUF at an address `>= BUF_BYTES` (20_memory.md R57). Safe: the model stops. -/
  | hostBufAddress (a : Nat)
  /-- A host access to MSG at an address `>= MSG_BYTES` (20_memory.md R57). Safe: the model stops. -/
  | hostMsgAddress (a : Nat)
  /-- A host read of `rp[i]` with `i >= rows` (10_state.md R33). Safe: the model stops. -/
  | hostRpIndex (i : Nat)
  /-- A host read of `cp[j]` with `j >= cols` (10_state.md R33). Safe: the model stops. -/
  | hostCpIndex (j : Nat)
  /-- A host access or a second command while BUSY = 1 (70_reset_and_hazards.md R240). Safe: the model stops. -/
  | hostWhileBusy
deriving DecidableEq, Repr

/-- Everything 10_state.md gives the block, the parameters it is built with (`cfg`, log entry 1), and three
fields of the model's own: the host moves to come (`port`, log entry 4), the last answer of the read port
(`answer`, log entry 6) and the number of reset events (`epoch`, log entry 2). -/
structure State where
  cfg : Config
  h0 : Header
  h1 : Header
  buf : Memory
  msg : Memory
  status : BitVec 8
  result : Word
  loc : LocWord
  busy : Bool
  port : List HostMove
  answer : Option Answer
  epoch : Nat
deriving DecidableEq, Repr

/-- The state right after reset: the table of 10_state.md R32, for the default parameters of 00_scope.md R5. -/
def State.reset : State :=
  { cfg := Config.standard
    h0 := Header.empty
    h1 := Header.empty
    buf := []
    msg := []
    status := 0x00
    result := 0x00000000
    loc := 0
    busy := false
    port := []
    answer := none
    epoch := 0 }

end Sys2Proof.Machine
end

