-- ==== Sys2Proof/Machine/Flags.lean ====
section
/-! DEFINITION. The numbers, classes and reasons of the status codes (30_encoding.md R80, R81) and the forms of RESULT and LOC
(10_state.md R28, R29). -/

namespace Sys2Proof.Machine

/-- The 8-bit status codes (30_encoding.md R80). -/
def Code.bits : Code → BitVec 8
  | .ok => 0x00
  | .desPrefixMismatch => 0x10
  | .desDimBound => 0x11
  | .desCapacity => 0x12
  | .desRowsumMismatch => 0x13
  | .desChecksumMismatch => 0x14
  | .rprBadChecksum => 0x20
  | .rprDimMismatch => 0x21
  | .rprNoColumn => 0x22
  | .rprMultiColumn => 0x23
  | .rprNoRow => 0x24
  | .rprMultiRow => 0x25
  | .rprMultiBit => 0x26
  | .errIllegalCmd => 0xE0
  | .errBadDim => 0xE1

/-- The failure classes of 60_exceptions.md R201 to R204. -/
inductive FailureClass where
  | headerCorruption
  | repairPrecondition
  | uncorrectablePattern
  | commandError
deriving DecidableEq, Repr

/-- The class of a code; `OK` has none (30_encoding.md R80, last column). -/
def Code.failureClass : Code → Option FailureClass
  | .ok => none
  | .desPrefixMismatch | .desDimBound | .desCapacity | .desRowsumMismatch | .desChecksumMismatch =>
    some .headerCorruption
  | .rprBadChecksum | .rprDimMismatch => some .repairPrecondition
  | .rprNoColumn | .rprMultiColumn | .rprNoRow | .rprMultiRow | .rprMultiBit => some .uncorrectablePattern
  | .errIllegalCmd | .errBadDim => some .commandError

/-- The quoted reason of each repair failure (30_encoding.md R81); the exact strings are not the source's
(91_not_in_source.md N12). -/
def Code.repairReason : Code → Option String
  | .rprBadChecksum => some "bad checksum"
  | .rprDimMismatch => some "dimension mismatch"
  | .rprNoColumn => some "no column located"
  | .rprMultiColumn => some "multiple columns affected"
  | .rprNoRow => some "no row located"
  | .rprMultiRow => some "multiple rows affected"
  | .rprMultiBit => some "multiple bad bits in one byte"
  | _ => none

/-- `RESULT` of `CCHK`: 1 when the stored checksum matches, else 0 (10_state.md R28). -/
def checkResult (matched : Bool) : Word := if matched then 1 else 0

/-- `RESULT` of `HCMP`: bit 0 is "equal", bit 1 is "not equal", the rest is 0 (10_state.md R28). -/
def compareResult (equal : Bool) : Word := if equal then 1 else 2

/-- `LOC <- (k[2:0], col[15:0], row[15:0])`, most significant first (10_state.md R29). -/
def locWord (k col row : Nat) : LocWord := BitVec.ofNat 3 k ++ BitVec.ofNat 16 col ++ BitVec.ofNat 16 row

end Sys2Proof.Machine
end

