-- ==== Sys2Proof/Machine/Ops.lean ====
section
/-! DEFINITION. The named operations over memory and registers: one byte of BUF or MSG, byte sequences, the header slots, and the
two ways a command ends, `done` and `raise` (00_scope.md section 6.2). -/

namespace Sys2Proof.Machine

/-! ### A memory as data -/

/-- The byte listed at an address, if the byte was written since reset. -/
def Memory.find : Memory → Nat → Option Byte
  | [], _ => none
  | (b, v) :: m, a => if b = a then some v else Memory.find m a

/-- Write one byte, keeping the addresses strictly rising. -/
def Memory.put : Memory → Nat → Byte → Memory
  | [], a, v => [(a, v)]
  | (b, u) :: m, a, v =>
    if a < b then (a, v) :: (b, u) :: m
    else if a = b then (a, v) :: m
    else (b, u) :: Memory.put m a v

/-- Write a byte sequence at consecutive addresses, one byte at a time (20_memory.md R45). -/
def Memory.putAll : Memory → Nat → List Byte → Memory
  | m, _, [] => m
  | m, a, v :: vs => Memory.putAll (Memory.put m a v) (a + 1) vs

/-- The canonical form: addresses strictly rising (log entry 3). -/
def Memory.wf : Memory → Bool
  | [] => true
  | [_] => true
  | (a, _) :: (b, v) :: m => decide (a < b) && Memory.wf ((b, v) :: m)

/-- Every listed address is below the size of the space. -/
def Memory.below (m : Memory) (n : Nat) : Bool := m.all fun c => decide (c.1 < n)

/-- `n` bytes of a space from address `a`, lowest address first: `MemRead` (00_scope.md 6.2). -/
def memRead (space : Nat → Byte) (a n : Nat) : List Byte := (List.range n).map fun i => space (a + i)

/-! ### BUF and MSG -/

/-- `BUF[a]`: the byte written last, or the unspecified byte of this reset epoch (20_memory.md R53, 93 U6). -/
def State.bufByte (s : State) (a : Nat) : Byte := (Memory.find s.buf a).getD (Config.freeBuf s.epoch a)

/-- `MSG[a]`: the byte written last, or the unspecified byte of this reset epoch (20_memory.md R53, 93 U6). -/
def State.msgByte (s : State) (a : Nat) : Byte := (Memory.find s.msg a).getD (Config.freeMsg s.epoch a)

/-- `BUF[a] <- v`. -/
def State.setBuf (s : State) (a : Nat) (v : Byte) : State := { s with buf := Memory.put s.buf a v }

/-- `MSG[a] <- v`. -/
def State.setMsg (s : State) (a : Nat) (v : Byte) : State := { s with msg := Memory.put s.msg a v }

/-- `MemWrite(MSG:a, n, bytes)`. -/
def State.writeMsg (s : State) (a : Nat) (bytes : List Byte) : State :=
  { s with msg := Memory.putAll s.msg a bytes }

/-! ### The header slots, LOC and the read port -/

/-- `H[h]`. -/
def State.header (s : State) : Slot → Header
  | .h0 => s.h0
  | .h1 => s.h1

/-- `H[h] <- v`, all five fields. -/
def State.setHeader (s : State) (h : Slot) (v : Header) : State :=
  match h with
  | .h0 => { s with h0 := v }
  | .h1 => { s with h1 := v }

/-- `LOC <- v`; only a flip of `RPR` does it (10_state.md R29). -/
def State.setLoc (s : State) (v : LocWord) : State := { s with loc := v }

/-- The host's read port gives `v`; no state of the block changes (20_memory.md R49, R51, R52). -/
def State.reply (s : State) (v : Answer) : State := { s with answer := some v }

/-! ### How a command begins and ends -/

/-- A command word is accepted: BUSY is 1 until STATUS and RESULT are written (10_state.md R30). -/
def State.accept (s : State) : State := { s with busy := true }

/-- The command ends: STATUS and RESULT are written and BUSY falls (10_state.md R27, R28, R30). -/
def State.finish (s : State) (c : Code) (result : Word) : State :=
  { s with status := c.bits, result := result, busy := false }

/-- `done(value)`: the normal end (00_scope.md 6.2). -/
def State.done (s : State) (value : Word) : State := s.finish .ok value

/-- `raise CODE`: the end of a failing command. Nothing is saved, no control is transferred, no other state
changes (00_scope.md 6.2, 60_exceptions.md R214). There is no return from it (R213). -/
def State.raise (s : State) (c : Code) : State := s.finish c 0

/-- The reset event: every register at the value of 10_state.md R32, BUF and MSG unspecified again (70 R230,
R232). The parameters stay, and so do the host's moves to come (log entry 8). -/
def State.afterReset (s : State) : State :=
  { State.reset with cfg := s.cfg, port := s.port, epoch := s.epoch + 1 }

end Sys2Proof.Machine
end

