-- ==== Sys2Proof/Machine/Operands.lean ====
section
/-! DEFINITION. The operand forms: a slot field names a slot as it stands, an immediate is used as it stands (30_encoding.md R71). -/

namespace Sys2Proof.Machine

/-- The slot a 4-bit slot field names: `NSLOT = 2` (R71, R73 (c)). -/
def slotOf (h : SlotField) : Option Slot :=
  if h = 0 then some .h0 else if h = 1 then some .h1 else none

/-- Run a command body on the slot its field names. A field of 2 or more belongs to an illegal word, which
ends as R73 says (log entry 11: no decoded command comes here). -/
def onSlot (ha : SlotField) (s : State) (body : Slot → Host.Outcome State Fault Refusal) :
    Host.Outcome State Fault Refusal :=
  match slotOf ha with
  | some a => body a
  | none => .next (s.raise .errIllegalCmd)

/-- Run a command body on the two slots its fields name. -/
def onSlots (ha hb : SlotField) (s : State) (body : Slot → Slot → Host.Outcome State Fault Refusal) :
    Host.Outcome State Fault Refusal :=
  onSlot ha s fun a => onSlot hb s fun b => body a b

end Sys2Proof.Machine
end

