-- ==== Sys2Proof/Machine/Checksum.lean ====
section
/-! DEFINITION. The checksum and the comparison of headers, and the commands CSUM, CCHK, HCMP (41_checksum_compare.md). -/

namespace Sys2Proof.Machine

/-- `sum32(seq)`: the sum of the elements, each widened to 32 bits (00_scope.md 6.1). -/
def sum32 : List Byte → Word
  | [] => 0
  | b :: bs => b.setWidth 32 + sum32 bs

/-- The right-hand side of the checksum equation for given dimensions and parities (R120). -/
def checksumOf (rows cols : Half) (rp cp : List Byte) : Word :=
  rows.setWidth 32 + cols.setWidth 32 + sum32 rp + sum32 cp

/-- `calc_checksum(h)` (R120). It does not read `h.checksum`. -/
def calcChecksum (h : Header) : Word := checksumOf h.rows h.cols h.rp h.cp

/-- `confirm_checksum(h)` (R121). -/
def confirmChecksum (h : Header) : Bool := h.checksum == calcChecksum h

/-- `hdr_eq(a, b)`: checksum, dimensions and both sequences agree (R122). -/
def hdrEq (a b : Header) : Bool :=
  a.checksum == b.checksum && (a.rows == b.rows && a.cols == b.cols) && a.rp == b.rp && a.cp == b.cp

/-- `hdr_ne(a, b)`: the logical negation of equality (R122). -/
def hdrNe (a b : Header) : Bool := !hdrEq a b

/-- `CSUM ha` (R124). -/
def execCsum (ha : SlotField) (s : State) : Host.Outcome State Fault Refusal :=
  onSlot ha s fun a => .next (s.done (calcChecksum (s.header a)))

/-- `CCHK ha` (R125): a mismatch is an answer, not a failure. -/
def execCchk (ha : SlotField) (s : State) : Host.Outcome State Fault Refusal :=
  onSlot ha s fun a => .next (s.done (checkResult (confirmChecksum (s.header a))))

/-- `HCMP ha, hb` (R127). -/
def execHcmp (ha hb : SlotField) (s : State) : Host.Outcome State Fault Refusal :=
  onSlots ha hb s fun a b => .next (s.done (compareResult (hdrEq (s.header a) (s.header b))))

end Sys2Proof.Machine
end

