-- ==== Sys2Proof/Machine/Wire.lean ====
section
/-! DEFINITION. The byte order of the wire integers: `enc16`, `enc32`, `dec16`, `dec32` (20_memory.md R44). -/

namespace Sys2Proof.Machine

/-- `enc16(v)`: two bytes, lowest address first. -/
def enc16 (e : Endian) (v : Half) : List Byte :=
  match e with
  | .little => [v.extractLsb' 0 8, v.extractLsb' 8 8]
  | .big => [v.extractLsb' 8 8, v.extractLsb' 0 8]

/-- `enc32(v)`: four bytes, lowest address first. -/
def enc32 (e : Endian) (v : Word) : List Byte :=
  match e with
  | .little => [v.extractLsb' 0 8, v.extractLsb' 8 8, v.extractLsb' 16 8, v.extractLsb' 24 8]
  | .big => [v.extractLsb' 24 8, v.extractLsb' 16 8, v.extractLsb' 8 8, v.extractLsb' 0 8]

/-- `dec16([b0, b1])`. -/
def dec16 (e : Endian) (b0 b1 : Byte) : Half :=
  match e with
  | .little => b1 ++ b0
  | .big => b0 ++ b1

/-- `dec32([b0, b1, b2, b3])`. -/
def dec32 (e : Endian) (b0 b1 b2 b3 : Byte) : Word :=
  match e with
  | .little => b3 ++ b2 ++ b1 ++ b0
  | .big => b0 ++ b1 ++ b2 ++ b3

end Sys2Proof.Machine
end

