-- ==== Sys2Proof/Machine/Deserializer.lean ====
section
/-! DEFINITION. The header deserializer and the command HDES (43_deserializer.md). -/

namespace Sys2Proof.Machine

/-- `deserialize_check(M)` (R150): five checks in this order, each failing fast; the header only when all
pass. Bytes 20 and above are read only after the first three. -/
def deserializeCheck (cfg : Config) (m : Nat → Byte) : Except Code Header :=
  if memRead m 0 8 ≠ memRead m 8 8 then .error .desPrefixMismatch
  else
    let checksum := dec32 cfg.wireEndian (m 0) (m 1) (m 2) (m 3)
    let rows := dec16 cfg.wireEndian (m 4) (m 5)
    let cols := dec16 cfg.wireEndian (m 6) (m 7)
    if checksum < rows.setWidth 32 + cols.setWidth 32 then .error .desDimBound
    else if cfg.maxRows < rows.toNat ∨ cfg.maxCols < cols.toNat then .error .desCapacity
    else
      let rp := memRead m 20 rows.toNat
      if sum32 rp ≠ dec32 cfg.wireEndian (m 16) (m 17) (m 18) (m 19) then .error .desRowsumMismatch
      else
        let cp := memRead m (20 + rows.toNat) cols.toNat
        if checksum ≠ checksumOf rows cols rp cp then .error .desChecksumMismatch
        else .ok { checksum := checksum, rows := rows, cols := cols, rp := rp, cp := cp }

/-- The state `HDES` leaves for a given slot (R152): the slot is written only on full success (R159). -/
def deserializeInto (a : Slot) (s : State) : State :=
  match deserializeCheck s.cfg s.msgByte with
  | .error c => s.raise c
  | .ok h => (s.setHeader a h).done 1

/-- `HDES ha` (R152). -/
def execHdes (ha : SlotField) (s : State) : Host.Outcome State Fault Refusal :=
  onSlot ha s fun a => .next (deserializeInto a s)

end Sys2Proof.Machine
end

