-- ==== Sys2Proof/Machine/Bits.lean ====
section
/-! DEFINITION. Bit and byte helpers: the parity of a byte, MSB-first masks, population count, XOR into a sequence. -/

namespace Sys2Proof.Machine

/-- `parity8(b)`: the XOR of the 8 bits of `b`, widened to a byte (40_parity_generator.md R100). -/
def parity8 (b : Byte) : Byte :=
  (BitVec.ofBool (b[0] ^^ b[1] ^^ b[2] ^^ b[3] ^^ b[4] ^^ b[5] ^^ b[6] ^^ b[7])).setWidth 8

/-- `msbmask(k) = 0x80 >> k`: the mask of MSB-first position `k` (00_scope.md 6.1). -/
def msbmask (k : Nat) : Byte := 0x80#8 >>> k

/-- `popcount(v)` of a byte (00_scope.md 6.1). -/
def popcount (v : Byte) : Nat := (List.range 8).countP fun i => v.getLsbD i

/-- The MSB-first position `k` with `v = msbmask(k)`, for a byte with one set bit (44_repair.md R176). On another
byte the value is the model's choice, 8 (log entry 19); the locator never asks there. -/
def msbPosition (v : Byte) : Nat := (List.range 8).findIdx fun k => msbmask k == v

/-- XOR a byte into element `i` of a byte sequence: `seq[i] <- seq[i] ^ v` (40_parity_generator.md R101). DESIGN
CHOICE: with no element `i` the sequence stays as it is, where the spec gives no result (log entry 19). -/
def xorAt : List Byte → Nat → Byte → List Byte
  | [], _, _ => []
  | b :: bs, 0, v => (b ^^^ v) :: bs
  | b :: bs, i + 1, v => b :: xorAt bs i v

end Sys2Proof.Machine
end

