-- ==== Sys2Proof/Machine/Parity.lean ====
section
/-! DEFINITION. The parity generator: `derive`, and the commands HCLR and PGEN (40_parity_generator.md). -/

namespace Sys2Proof.Machine

/-- The single pass of R103 from position `i` on: byte `i` goes into row `i % rows` and, as its own parity,
into column `i / rows`. R103 defines it for `rows*cols` bytes. DESIGN CHOICE on another length, which R109 and 93 U1
call undefined: the bytes present are XORed, and a position with no row or no column drops out (log entry 19). -/
def derivePass (rows : Nat) : Nat → List Byte → List Byte → List Byte → List Byte × List Byte
  | _, [], rp, cp => (rp, cp)
  | i, b :: buf, rp, cp => derivePass rows (i + 1) buf (xorAt rp (i % rows) b) (xorAt cp (i / rows) (parity8 b))

/-- `derive(buf, rows, cols)` (R103): both parity vectors from zero accumulators, and the checksum. Its value for
a buffer of another length than `rows*cols` is the model's choice (R109, log entry 19); `PGEN` always passes
`rows*cols` bytes. -/
def derive (buf : List Byte) (rows cols : Half) : Header :=
  let vectors := derivePass rows.toNat 0 buf (List.replicate rows.toNat 0) (List.replicate cols.toNat 0)
  { checksum := checksumOf rows cols vectors.1 vectors.2
    rows := rows
    cols := cols
    rp := vectors.1
    cp := vectors.2 }

/-- `HCLR ha` (R107): construct the empty placeholder. -/
def execHclr (ha : SlotField) (s : State) : Host.Outcome State Fault Refusal :=
  onSlot ha s fun a => .next ((s.setHeader a Header.empty).done 0)

/-- The condition of `ERR_BAD_DIM` (R108): a dimension is zero or exceeds the slot capacity. -/
def badDims (cfg : Config) (rows cols : Half) : Bool :=
  rows == 0 || cols == 0 || decide (cfg.maxRows < rows.toNat) || decide (cfg.maxCols < cols.toNat)

/-- The buffer of given dimensions: `BUF[0 .. rows*cols)` (10_state.md R25). -/
def State.buffer (s : State) (rows cols : Half) : List Byte := memRead s.bufByte 0 (rows.toNat * cols.toNat)

/-- The state `PGEN` leaves for a given slot (R108). -/
def generate (a : Slot) (rows cols : Half) (s : State) : State :=
  if badDims s.cfg rows cols then s.raise .errBadDim
  else
    let h := derive (s.buffer rows cols) rows cols
    (s.setHeader a h).done h.checksum

/-- `PGEN ha, rows, cols` (R108). -/
def execPgen (ha : SlotField) (rows cols : Half) (s : State) : Host.Outcome State Fault Refusal :=
  onSlot ha s fun a => .next (generate a rows cols s)

end Sys2Proof.Machine
end

