-- ==== Sys2Proof/Machine/Repair.lean ====
section
/-! DEFINITION. The bit-flip locator and repair, and the command RPR (44_repair.md). -/

namespace Sys2Proof.Machine

/-- The indices, counted from `i`, at which two byte sequences differ: the scan of R174. -/
def diffFrom : Nat → List Byte → List Byte → List Nat
  | i, x :: xs, y :: ys => if x ≠ y then i :: diffFrom (i + 1) xs ys else diffFrom (i + 1) xs ys
  | _, _, _ => []

/-- The indices at which two parity sequences differ. -/
def diffIndices (xs ys : List Byte) : List Nat := diffFrom 0 xs ys

/-- What the locator finds (R171): a failure, equal headers, or the one bad bit. -/
inductive Verdict where
  | fail (c : Code)
  | noop
  | flip (col row k : Nat)
deriving DecidableEq, Repr

/-- Step c of R171: the XOR `d` of the two row-parity bytes must have exactly one bit set (R176). -/
def locateBit (col row : Nat) (d : Byte) : Verdict :=
  if popcount d ≠ 1 then .fail .rprMultiBit else .flip col row (msbPosition d)

/-- Steps b and c of R171: exactly one row must differ. -/
def locateRow (t o : Header) (col : Nat) : Verdict :=
  match diffIndices t.rp o.rp with
  | [] => .fail .rprNoRow
  | [row] => locateBit col row (t.rp.getD row 0 ^^^ o.rp.getD row 0)
  | _ :: _ :: _ => .fail .rprMultiRow

/-- The tests of R171 in their order, from the trusted header `t` and the observed header `o`. -/
def locate (t o : Header) : Verdict :=
  if confirmChecksum t = false then .fail .rprBadChecksum
  else if hdrEq t o then .noop
  else if t.rows ≠ o.rows ∨ t.cols ≠ o.cols then .fail .rprDimMismatch
  else
    match diffIndices t.cp o.cp with
    | [] => .fail .rprNoColumn
    | [col] => locateRow t o col
    | _ :: _ :: _ => .fail .rprMultiColumn

/-- `bit_row = 8 * row + k` (R177). -/
def bitRow (row k : Nat) : Nat := 8 * row + k

/-- `addr = col * rows + bit_row / 8` (R177). -/
def flipAddr (rows : Half) (col row k : Nat) : Nat := col * rows.toNat + bitRow row k / 8

/-- The mask of MSB-first position `bit_row % 8` (R177). -/
def flipMask (row k : Nat) : Byte := msbmask (bitRow row k % 8)

/-- What `repair` returns (R171); a flip carries the repaired buffer. -/
inductive RepairResult where
  | fail (c : Code)
  | noop
  | flip (col row k : Nat) (buf : List Byte)
deriving DecidableEq, Repr

/-- `repair(T, O, buf)` (R171), on a byte sequence of `rows*cols` bytes. DESIGN CHOICE on a sequence too short to hold
the located byte, for which the spec gives no result: the flip is reported and the sequence is as it was (log entry
19). `RPR` works on BUF and does not come here. -/
def repair (t o : Header) (buf : List Byte) : RepairResult :=
  match locate t o with
  | .fail c => .fail c
  | .noop => .noop
  | .flip col row k => .flip col row k (xorAt buf (flipAddr t.rows col row k) (flipMask row k))

/-- The `Ok_flip` case of `RPR` (R180): one byte of BUF, LOC, and RESULT 1. The address is inside BUF in
every state a run reaches (R184); otherwise the model stops (log entry 10). -/
def flipBit (t : Header) (col row k : Nat) (s : State) : Host.Outcome State Fault Refusal :=
  let a := flipAddr t.rows col row k
  if a < s.cfg.bufBytes then
    .next (((s.setBuf a (s.bufByte a ^^^ flipMask row k)).setLoc (locWord k col row)).done 1)
  else .fault (.bufOutOfRange a)

/-- The three cases of `RPR` for a trusted and an observed header (R180). -/
def repairBuf (t o : Header) (s : State) : Host.Outcome State Fault Refusal :=
  match locate t o with
  | .fail c => .next (s.raise c)
  | .noop => .next (s.done 0)
  | .flip col row k => flipBit t col row k s

/-- `RPR ha, hb` (R180): `ha` is the trusted slot, `hb` the observed one. -/
def execRpr (ha hb : SlotField) (s : State) : Host.Outcome State Fault Refusal :=
  onSlots ha hb s fun a b => repairBuf (s.header a) (s.header b) s

end Sys2Proof.Machine
end

