-- ==== Sys2Proof/Machine/Serializer.lean ====
section
/-! DEFINITION. The header serializer and the command HSER (42_serializer.md, 30_encoding.md R60). -/

namespace Sys2Proof.Machine

/-- The 8-byte prefix: checksum, rows, cols (30_encoding.md R60). -/
def prefixBytes (e : Endian) (h : Header) : List Byte := enc32 e h.checksum ++ enc16 e h.rows ++ enc16 e h.cols

/-- `serialize(h)` (R140): the prefix twice, the row-parity sum, both parity sequences. -/
def serialize (e : Endian) (h : Header) : List Byte :=
  prefixBytes e h ++ prefixBytes e h ++ enc32 e (sum32 h.rp) ++ h.rp ++ h.cp

/-- The message length `20 + rows + cols` as RESULT carries it (R141, 10_state.md R28). -/
def messageLength (h : Header) : Word := 20 + h.rows.setWidth 32 + h.cols.setWidth 32

/-- Write the serialized form of a header to MSG (R141). The message always fits in the slots a run reaches;
otherwise an address outside MSG would be formed (20_memory.md R47) and the model stops (log entry 10). -/
def sendHeader (h : Header) (s : State) : Host.Outcome State Fault Refusal :=
  let m := serialize s.cfg.wireEndian h
  if m.length ≤ s.cfg.msgBytes then .next ((s.writeMsg 0 m).done (messageLength h))
  else .fault (.msgOutOfRange m.length)

/-- `HSER ha` (R141). -/
def execHser (ha : SlotField) (s : State) : Host.Outcome State Fault Refusal :=
  onSlot ha s fun a => sendHeader (s.header a) s

end Sys2Proof.Machine
end

