-- ==== Sys2Proof/Machine/Dispatch.lean ====
section
/-! DEFINITION. One arm per command (30_encoding.md R72). -/

namespace Sys2Proof.Machine

/-- The effect of a command. -/
def exec (i : Instr) (s : State) : Host.Outcome State Fault Refusal :=
  match i with
  | .hclr ha => Sys2Proof.Machine.execHclr ha s
  | .pgen ha rows cols => Sys2Proof.Machine.execPgen ha rows cols s
  | .csum ha => Sys2Proof.Machine.execCsum ha s
  | .cchk ha => Sys2Proof.Machine.execCchk ha s
  | .hcmp ha hb => Sys2Proof.Machine.execHcmp ha hb s
  | .hser ha => Sys2Proof.Machine.execHser ha s
  | .hdes ha => Sys2Proof.Machine.execHdes ha s
  | .rpr ha hb => Sys2Proof.Machine.execRpr ha hb s

end Sys2Proof.Machine
end

