-- ==== Sys2Proof/Machine/HostPort.lean ====
section
/-! DEFINITION. What each host move does (20_memory.md R48 to R52, R57; 10_state.md R33; 70_reset_and_hazards.md R230, R232, R240). -/

namespace Sys2Proof.Machine

/-- The block executes a presented command word to completion: decode first, then run; an illegal word ends
with `ERR_ILLEGAL_CMD` (30_encoding.md R73, 60_exceptions.md R207). -/
def runCommand (w : CmdWord) (s : State) : Host.Outcome State Fault Refusal :=
  match decode w with
  | .ok i => exec i s.accept
  | .error _ => .next (s.accept.raise .errIllegalCmd)

/-- A host access to BUF is admitted only below `BUF_BYTES` (20_memory.md R57). -/
def onBuf (a : Nat) (s : State) (t : State) : Host.Outcome State Fault Refusal :=
  if a < s.cfg.bufBytes then .next t else .refused (.hostBufAddress a)

/-- A host access to MSG is admitted only below `MSG_BYTES` (20_memory.md R57). -/
def onMsg (a : Nat) (s : State) (t : State) : Host.Outcome State Fault Refusal :=
  if a < s.cfg.msgBytes then .next t else .refused (.hostMsgAddress a)

/-- A host read of `rp[i]` is admitted only for `i < rows` (10_state.md R33). -/
def readRpElement (h : Header) (i : Nat) (s : State) : Host.Outcome State Fault Refusal :=
  if i < h.rows.toNat then .next (s.reply (.byte (h.rp.getD i 0))) else .refused (.hostRpIndex i)

/-- A host read of `cp[j]` is admitted only for `j < cols` (10_state.md R33). -/
def readCpElement (h : Header) (j : Nat) (s : State) : Host.Outcome State Fault Refusal :=
  if j < h.cols.toNat then .next (s.reply (.byte (h.cp.getD j 0))) else .refused (.hostCpIndex j)

/-- A host move is admitted only while BUSY = 0 (70_reset_and_hazards.md R240). -/
def whenIdle (s : State) (o : Host.Outcome State Fault Refusal) : Host.Outcome State Fault Refusal :=
  if s.busy then .refused .hostWhileBusy else o

/-- One host move on the block. A reset event is admitted at any time. -/
def hostMove (m : HostMove) (s : State) : Host.Outcome State Fault Refusal :=
  match m with
  | .command w => whenIdle s (runCommand w s)
  | .writeBuf a v => whenIdle s (onBuf a s (s.setBuf a v))
  | .readBuf a => whenIdle s (onBuf a s (s.reply (.byte (s.bufByte a))))
  | .writeMsg a v => whenIdle s (onMsg a s (s.setMsg a v))
  | .readMsg a => whenIdle s (onMsg a s (s.reply (.byte (s.msgByte a))))
  | .readStatus => whenIdle s (.next (s.reply (.byte s.status)))
  | .readResult => whenIdle s (.next (s.reply (.word s.result)))
  | .readLoc => whenIdle s (.next (s.reply (.loc s.loc)))
  | .readChecksum h => whenIdle s (.next (s.reply (.word (s.header h).checksum)))
  | .readRows h => whenIdle s (.next (s.reply (.half (s.header h).rows)))
  | .readCols h => whenIdle s (.next (s.reply (.half (s.header h).cols)))
  | .readRp h i => whenIdle s (readRpElement (s.header h) i s)
  | .readCp h j => whenIdle s (readCpElement (s.header h) j s)
  | .reset => .next s.afterReset
  | .resetDuring _ => whenIdle s (.next s.afterReset)

end Sys2Proof.Machine
end

