-- ==== Sys2Proof/Machine/Step.lean ====
section
/-! DEFINITION. One step of the machine: the host's next move. -/

namespace Sys2Proof.Machine

/-- The block takes the host's next move; when the host issues nothing, nothing changes (60_exceptions.md
R222, log entry 5). -/
def step (s : State) : Host.Outcome State Fault Refusal :=
  match s.port with
  | [] => .next s
  | m :: rest => hostMove m { s with port := rest }

/-- `s` with the command word of a row of the opcode table as the host's next move, presented while the
block is idle (20_memory.md R52): the very next step runs it (log entry 4). -/
def State.withFetchWord (s : State) (nbits w : Nat) : State :=
  { s with port := .command (tableWord nbits w) :: s.port, busy := false }

end Sys2Proof.Machine
end

