-- ==== Sys2Proof/Machine/Assembler.lean ====
section
/-! DEFINITION. The assembler text of 30_encoding.md R75: one command a line, operands separated by commas, `;` comments.
Where R75 is silent (spacing, letter case of hexadecimal digits, blank lines) log entry 14 says what is taken. -/

namespace Sys2Proof.Machine

/-- The blank characters between the parts of a line. -/
def isBlank (c : Char) : Bool := c == ' ' || c == '\t'

/-- The text before the first `;`. -/
def stripComment : List Char → List Char
  | [] => []
  | c :: cs => if c == ';' then [] else c :: stripComment cs

/-- The text without blanks at either end. -/
def trimBlanks (cs : List Char) : List Char := ((cs.dropWhile isBlank).reverse.dropWhile isBlank).reverse

/-- The pieces between commas. -/
def splitCommas : List Char → List (List Char)
  | [] => [[]]
  | c :: cs =>
    if c == ',' then [] :: splitCommas cs
    else
      match splitCommas cs with
      | [] => [[c]]
      | p :: ps => (c :: p) :: ps

/-- The value of a digit in a base of at most 16. -/
def digitValue (base : Nat) (c : Char) : Option Nat :=
  let v :=
    if '0' ≤ c ∧ c ≤ '9' then c.toNat - 48
    else if 'A' ≤ c ∧ c ≤ 'F' then c.toNat - 55
    else if 'a' ≤ c ∧ c ≤ 'f' then c.toNat - 87
    else 16
  if v < base then some v else none

/-- The value of a digit sequence, from the value read so far. -/
def digitsFrom (base : Nat) : Nat → List Char → Option Nat
  | n, [] => some n
  | n, c :: cs =>
    match digitValue base c with
    | some d => digitsFrom base (n * base + d) cs
    | none => none

/-- An immediate: a decimal number or a `0x` hexadecimal number in 0..65535 (R75). -/
def parseImmediate (cs : List Char) : Option Half :=
  let value :=
    match cs with
    | '0' :: 'x' :: d :: ds => digitsFrom 16 0 (d :: ds)
    | d :: ds => digitsFrom 10 0 (d :: ds)
    | [] => none
  match value with
  | some n => if n ≤ 65535 then some (BitVec.ofNat 16 n) else none
  | none => none

/-- A slot operand, `H0` or `H1` (R75). -/
def parseSlot (cs : List Char) : Option SlotField :=
  if cs = ['H', '0'] then some 0 else if cs = ['H', '1'] then some 1 else none

/-- A command with the one operand `ha`. -/
def parseOneSlot (ops : List (List Char)) (mk : SlotField → Instr) : Option Instr :=
  match ops with
  | [a] => (parseSlot a).map mk
  | _ => none

/-- A command with the operands `ha, hb`. -/
def parseTwoSlots (ops : List (List Char)) (mk : SlotField → SlotField → Instr) : Option Instr :=
  match ops with
  | [a, b] => (parseSlot a).bind fun ha => (parseSlot b).map fun hb => mk ha hb
  | _ => none

/-- The operands of `PGEN`: `ha, rows, cols`. -/
def parsePgen (ops : List (List Char)) : Option Instr :=
  match ops with
  | [a, r, c] =>
    (parseSlot a).bind fun ha => (parseImmediate r).bind fun rows => (parseImmediate c).map fun cols => .pgen ha rows cols
  | _ => none

/-- A mnemonic in upper case with its operands (R75, R71). -/
def parseCommand (mnemonic : List Char) (ops : List (List Char)) : Option Instr :=
  if mnemonic = "HCLR".toList then parseOneSlot ops .hclr
  else if mnemonic = "PGEN".toList then parsePgen ops
  else if mnemonic = "CSUM".toList then parseOneSlot ops .csum
  else if mnemonic = "CCHK".toList then parseOneSlot ops .cchk
  else if mnemonic = "HCMP".toList then parseTwoSlots ops .hcmp
  else if mnemonic = "HSER".toList then parseOneSlot ops .hser
  else if mnemonic = "HDES".toList then parseOneSlot ops .hdes
  else if mnemonic = "RPR".toList then parseTwoSlots ops .rpr
  else none

/-- The command of one line of text. -/
def assembleLine (line : List Char) : Option Instr :=
  let text := trimBlanks (stripComment line)
  let mnemonic := text.takeWhile fun c => !isBlank c
  let rest := text.dropWhile fun c => !isBlank c
  parseCommand mnemonic ((splitCommas rest).map trimBlanks)

/-- The command words of a text, line by line; lines with no command on them are skipped. -/
def assemble : List String → Option (List CmdWord)
  | [] => some []
  | line :: lines =>
    if trimBlanks (stripComment line.toList) = [] then assemble lines
    else (assembleLine line.toList).bind fun i => (assemble lines).map fun ws => encode i :: ws

end Sys2Proof.Machine
end

