-- ==== Sys2Proof/Safety.lean ====
section
/-! DEFINITION. What the claims call a good header and a good state (10_state.md R23, R35), and when a step faults. -/

namespace Sys2Proof.Machine

/-- Well-shaped: `len(rp) = rows` and `len(cp) = cols` (10_state.md R23 (a)). -/
abbrev Header.wellShaped (h : Header) : Prop := h.rp.length = h.rows.toNat ∧ h.cp.length = h.cols.toNat

/-- Checksum-consistent (10_state.md R23 (b)): the sum is over natural numbers, so nothing wraps. -/
abbrev Header.consistent (h : Header) : Prop :=
  h.checksum.toNat = h.rows.toNat + h.cols.toNat + (h.rp.map BitVec.toNat).sum + (h.cp.map BitVec.toNat).sum

/-- The dimensions are within the slot capacity (10_state.md R22). -/
abbrev Header.fits (h : Header) (c : Config) : Prop := h.rows.toNat ≤ c.maxRows ∧ h.cols.toNat ≤ c.maxCols

/-- What every slot satisfies at all times in fault-free operation (10_state.md R35). -/
abbrev Header.good (h : Header) (c : Config) : Prop := h.wellShaped ∧ h.consistent ∧ h.fits c

/-- An 8-bit value is one of the codes of 30_encoding.md R80. -/
abbrev isStatusCode (v : BitVec 8) : Prop :=
  v ∈ [0x00#8, 0x10#8, 0x11#8, 0x12#8, 0x13#8, 0x14#8, 0x20#8, 0x21#8, 0x22#8, 0x23#8, 0x24#8, 0x25#8, 0x26#8,
    0xE0#8, 0xE1#8]

/-- The invariant of the block: legal parameters, good slots, both memories canonical and inside their
spaces, a legal status code, and BUSY low between steps. -/
abbrev State.Inv (s : State) : Prop :=
  s.cfg.inRange ∧ s.h0.good s.cfg ∧ s.h1.good s.cfg ∧
  (Memory.wf s.buf = true ∧ Memory.below s.buf s.cfg.bufBytes = true) ∧
  (Memory.wf s.msg = true ∧ Memory.below s.msg s.cfg.msgBytes = true) ∧
  isStatusCode s.status ∧ s.busy = false

/-- A step that stops on a fault of the model's own. -/
abbrev faults (o : Host.Outcome State Fault Refusal) : Prop := ∃ r, o = .fault r

end Sys2Proof.Machine
end

