-- ==== Sys2Proof/Certificates/Slice0/Obligations.lean ====
section
/-! DEFINITION. What is claimed of the ParityCheck CORE, one `def Obligations.<Name> : Prop` a claim, with the vocabulary the
claims share. -/

open Sys2Proof Sys2Proof.Machine

/-! ### Vocabulary -/

namespace Sys2Proof.Claims

/-- A slot field carries the number of a slot (30_encoding.md R71). -/
def namesSlot (f : SlotField) (a : Slot) : Prop := f.toNat = (match a with | .h0 => 0 | .h1 => 1)

/-- The sum of a byte sequence over the natural numbers. -/
def byteSum (bytes : List Byte) : Nat := (bytes.map BitVec.toNat).sum

/-- `rows + cols + sum(rp) + sum(cp)` over the natural numbers (10_state.md R21). -/
def checksumNat (h : Header) : Nat := h.rows.toNat + h.cols.toNat + byteSum h.rp + byteSum h.cp

/-- The XOR of a byte sequence. -/
def xorAll (bytes : List Byte) : Byte := bytes.foldr (· ^^^ ·) 0

/-- The bytewise XOR of two buffers. -/
def xorBytes (x y : List Byte) : List Byte := List.zipWith (· ^^^ ·) x y

/-- The number of 1 bits of a byte, bit by bit from its value. -/
def ones (b : Byte) : Nat := ((List.range 8).map fun i => b.toNat / 2 ^ i % 2).sum

/-- Byte `i` of an `n`-byte unsigned integer on the wire (20_memory.md R44). -/
def wireByte (e : Endian) (n v i : Nat) : Nat :=
  match e with
  | .little => v / 256 ^ i % 256
  | .big => v / 256 ^ (n - 1 - i) % 256

/-- The value of the `n`-byte unsigned integer at address `a` (20_memory.md R44): little endian, the lowest address
has the weight 1; big endian, the highest has. -/
def wireNat (e : Endian) (m : Nat → Byte) (a : Nat) : Nat → Nat
  | 0 => 0
  | n + 1 =>
    match e with
    | .little => wireNat e m (a + 1) n * 256 + (m a).toNat
    | .big => wireNat e m a n * 256 + (m (a + n)).toNat

/-- How many of the first `n` elements of two sequences differ. -/
def diffCount (n : Nat) (xs ys : List Byte) : Nat := (List.range n).countP fun i => xs.getD i 0 != ys.getD i 0

/-- STATUS, RESULT and BUSY after a command. -/
def responds (t : State) (status : BitVec 8) (result : Word) : Prop :=
  t.status = status ∧ t.result = result ∧ t.busy = false

/-- Every byte of BUF reads as before. -/
def sameBuf (s t : State) : Prop := ∀ a, t.bufByte a = s.bufByte a

/-- Every byte of MSG reads as before. -/
def sameMsg (s t : State) : Prop := ∀ a, t.msgByte a = s.msgByte a

/-- Both header slots are as before. -/
def sameSlots (s t : State) : Prop := ∀ g, t.header g = s.header g

/-- Every header slot but one is as before. -/
def sameOtherSlots (a : Slot) (s t : State) : Prop := ∀ g, g ≠ a → t.header g = s.header g

/-- The parameters and the model's own fields are as before. -/
def sameRest (s t : State) : Prop :=
  t.cfg = s.cfg ∧ t.port = s.port ∧ t.answer = s.answer ∧ t.epoch = s.epoch

/-- Nothing but STATUS, RESULT and BUSY may have changed. -/
def sameButResponse (s t : State) : Prop :=
  sameSlots s t ∧ sameBuf s t ∧ sameMsg s t ∧ t.loc = s.loc ∧ sameRest s t

/-- The closed form of a derived header (40_parity_generator.md R104), for a buffer given byte by byte. -/
def isDerived (h : Header) (buf : Nat → Byte) (rows cols : Half) : Prop :=
  h.rows = rows ∧ h.cols = cols ∧ h.rp.length = rows.toNat ∧ h.cp.length = cols.toNat ∧
  (∀ r, r < rows.toNat → h.rp.getD r 0 = xorAll ((List.range cols.toNat).map fun c => buf (c * rows.toNat + r))) ∧
  (∀ c, c < cols.toNat →
    h.cp.getD c 0 = xorAll ((List.range rows.toNat).map fun r => parity8 (buf (c * rows.toNat + r)))) ∧
  h.checksum.toNat = checksumNat h

/-- The syndrome of one flipped bit (44_repair.md R171): the trusted header is consistent, the dimensions
agree, exactly column `col` and row `row` differ, and the row differs in MSB-first position `k` alone. -/
def oneBitSyndrome (t o : Header) (col row k : Nat) : Prop :=
  t.wellShaped ∧ o.wellShaped ∧ t.consistent ∧ t.rows = o.rows ∧ t.cols = o.cols ∧
  col < t.cols.toNat ∧ row < t.rows.toNat ∧ k < 8 ∧
  (∀ j, j < t.cols.toNat → (t.cp.getD j 0 ≠ o.cp.getD j 0 ↔ j = col)) ∧
  (∀ i, i < t.rows.toNat → (t.rp.getD i 0 ≠ o.rp.getD i 0 ↔ i = row)) ∧
  t.rp.getD row 0 ^^^ o.rp.getD row 0 = 0x80#8 >>> k

/-- Copy A of the prefix equals copy B (30_encoding.md R60). -/
def copiesAgree (m : Nat → Byte) : Prop := ∀ i, i < 8 → m i = m (8 + i)

end Sys2Proof.Claims

open Sys2Proof.Claims

/-! ### Encoding -/

/-- Decoding the word of a well-formed command gives it back, every operand at every value (30_encoding.md
section 2). -/
def Obligations.DecodeEncodeRoundTrip : Prop := ∀ i : Instr, i.wellFormed = true → decode (encode i) = .ok i

/-- A word has one meaning: a decoded command is well formed and its word is the word decoded (30_encoding.md
section 2). -/
def Obligations.EncodeDecodeRoundTrip : Prop :=
  ∀ (w : CmdWord) (i : Instr), decode w = .ok i → encode i = w ∧ i.wellFormed = true

/-- The opcode map of R72: a word is a command exactly when it agrees with the command's match under its mask, with
the operands at the places of format C (30_encoding.md section 2), and a word that matches no row is illegal. -/
def Obligations.OpcodeMapByMatchAndMask : Prop :=
  ∀ w : CmdWord,
    let haIs := fun ha : SlotField => ha.toNat = w.toNat / 2 ^ 36 % 16
    let hbIs := fun hb : SlotField => hb.toNat = w.toNat / 2 ^ 32 % 16
    (∀ ha, decode w = .ok (.hclr ha) ↔ w &&& 0xFFEFFFFFFFFF = 0x010000000000 ∧ haIs ha) ∧
    (∀ ha rows cols, decode w = .ok (.pgen ha rows cols) ↔ w &&& 0xFFEF00000000 = 0x020000000000 ∧ haIs ha ∧
      rows.toNat = w.toNat / 2 ^ 16 % 65536 ∧ cols.toNat = w.toNat % 65536) ∧
    (∀ ha, decode w = .ok (.csum ha) ↔ w &&& 0xFFEFFFFFFFFF = 0x030000000000 ∧ haIs ha) ∧
    (∀ ha, decode w = .ok (.cchk ha) ↔ w &&& 0xFFEFFFFFFFFF = 0x040000000000 ∧ haIs ha) ∧
    (∀ ha hb, decode w = .ok (.hcmp ha hb) ↔ w &&& 0xFFEEFFFFFFFF = 0x050000000000 ∧ haIs ha ∧ hbIs hb) ∧
    (∀ ha, decode w = .ok (.hser ha) ↔ w &&& 0xFFEFFFFFFFFF = 0x060000000000 ∧ haIs ha) ∧
    (∀ ha, decode w = .ok (.hdes ha) ↔ w &&& 0xFFEFFFFFFFFF = 0x070000000000 ∧ haIs ha) ∧
    (∀ ha hb, decode w = .ok (.rpr ha hb) ↔ w &&& 0xFFEEFFFFFFFF = 0x080000000000 ∧ haIs ha ∧ hbIs hb) ∧
    ((∃ e, decode w = .error e) ↔
      w &&& 0xFFEFFFFFFFFF ∉ [0x010000000000, 0x030000000000, 0x040000000000, 0x060000000000, 0x070000000000] ∧
      w &&& 0xFFEF00000000 ≠ 0x020000000000 ∧
      w &&& 0xFFEEFFFFFFFF ∉ [0x050000000000, 0x080000000000])

/-- R73: which words are illegal, by the five fields of the word's value, and what an illegal word does. -/
def Obligations.IllegalWords : Prop :=
  ∀ w : CmdWord,
    ((∃ e, decode w = .error e) ↔
      let op := w.toNat / 2 ^ 40
      let ha := w.toNat / 2 ^ 36 % 16
      let hb := w.toNat / 2 ^ 32 % 16
      let rows := w.toNat / 2 ^ 16 % 65536
      let cols := w.toNat % 65536
      (op < 1 ∨ 8 < op) ∨
      (hb ≠ 0 ∧ op ≠ 5 ∧ op ≠ 8) ∨ ((rows ≠ 0 ∨ cols ≠ 0) ∧ op ≠ 2) ∨
      2 ≤ ha ∨ (2 ≤ hb ∧ (op = 5 ∨ op = 8))) ∧
    ((∃ e, decode w = .error e) →
      ∀ (s : State) (rest : List HostMove), s.busy = false → s.port = .command w :: rest →
        step s = .next { s with port := rest, status := 0xE0, result := 0 })

/-- A few words written out from R72 and section 2.7 of 95_test_vectors.md (a sanity statement; the names of the three
reasons are the model's, log entry 17). -/
def Obligations.SampleWordsDecode : Prop :=
  decode 0x011000000000 = .ok (.hclr 1) ∧ decode 0x021000030005 = .ok (.pgen 1 3 5) ∧
  decode 0x030000000000 = .ok (.csum 0) ∧ decode 0x040000000000 = .ok (.cchk 0) ∧
  decode 0x050100000000 = .ok (.hcmp 0 1) ∧ decode 0x061000000000 = .ok (.hser 1) ∧
  decode 0x070000000000 = .ok (.hdes 0) ∧ decode 0x080100000000 = .ok (.rpr 0 1) ∧
  decode 0x010100000000 = .error .unusedFieldNotZero ∧ decode 0x082100000000 = .error .badSlot ∧
  decode 0x000000000000 = .error .badOpcode

/-- The four examples of R75 assemble to the words it gives, and so does a `PGEN` of section 2.7 of
95_test_vectors.md with two different dimensions. -/
def Obligations.AssemblerExamples : Prop :=
  assemble ["PGEN H1, 3, 3", "RPR H0, H1", "HCLR H0", "HCMP H1, H0", "PGEN H1, 2, 3"] =
    some [0x021000030003, 0x080100000000, 0x010000000000, 0x051000000000, 0x021000020003]

/-! ### The step -/

/-- A step on a presented word runs the command the word decodes to, on the state with the move taken and
BUSY high (20_memory.md R52, 10_state.md R30). -/
def Obligations.StepRunsDecodedCommand : Prop :=
  ∀ (s : State) (w : CmdWord) (i : Instr) (rest : List HostMove),
    s.busy = false → s.port = .command w :: rest → decode w = .ok i →
    step s = exec i { s with port := rest, busy := true }

/-- The word placed by `withFetchWord` is the one the next step runs (log entries 4 and 12). -/
def Obligations.FetchedWordRuns : Prop :=
  ∀ (s : State) (nbits w : Nat) (i : Instr), decodeTableWord nbits w = some i →
    step (s.withFetchWord nbits w) = exec i { s with busy := true }

/-- When the host issues nothing, nothing changes (60_exceptions.md R222; the model's choice, log entry 5). -/
def Obligations.NothingIssuedNothingChanges : Prop := ∀ s : State, s.port = [] → step s = .next s

/-- R48 and R50: a host write inside the space changes that byte and nothing else. -/
def Obligations.HostWritesOneByte : Prop :=
  ∀ (s : State) (a : Nat) (v : Byte) (rest : List HostMove), s.busy = false →
    (a < s.cfg.bufBytes → s.port = .writeBuf a v :: rest →
      ∃ t, step s = .next t ∧ t.bufByte a = v ∧ (∀ b, b ≠ a → t.bufByte b = s.bufByte b) ∧ sameMsg s t ∧
        t = { s with port := rest, buf := t.buf }) ∧
    (a < s.cfg.msgBytes → s.port = .writeMsg a v :: rest →
      ∃ t, step s = .next t ∧ t.msgByte a = v ∧ (∀ b, b ≠ a → t.msgByte b = s.msgByte b) ∧ sameBuf s t ∧
        t = { s with port := rest, msg := t.msg })

/-- R49 and R51: a host read inside the space answers the byte and has no side effect. -/
def Obligations.HostReadsOneByte : Prop :=
  ∀ (s : State) (a : Nat) (rest : List HostMove), s.busy = false →
    (a < s.cfg.bufBytes → s.port = .readBuf a :: rest →
      step s = .next { s with port := rest, answer := some (.byte (s.bufByte a)) }) ∧
    (a < s.cfg.msgBytes → s.port = .readMsg a :: rest →
      step s = .next { s with port := rest, answer := some (.byte (s.msgByte a)) })

/-- R33: the host reads of the slots, with no side effect; an index at or beyond the dimension is not
admitted (no step; the name of the refusal is the model's, log entry 9). -/
def Obligations.HostReadsSlots : Prop :=
  ∀ (s : State) (g : Slot) (i : Nat) (rest : List HostMove), s.busy = false →
    (s.port = .readChecksum g :: rest →
      step s = .next { s with port := rest, answer := some (.word (s.header g).checksum) }) ∧
    (s.port = .readRows g :: rest → step s = .next { s with port := rest, answer := some (.half (s.header g).rows) }) ∧
    (s.port = .readCols g :: rest → step s = .next { s with port := rest, answer := some (.half (s.header g).cols) }) ∧
    (s.port = .readRp g i :: rest →
      (i < (s.header g).rows.toNat →
        step s = .next { s with port := rest, answer := some (.byte ((s.header g).rp.getD i 0)) }) ∧
      ((s.header g).rows.toNat ≤ i → step s = .refused (.hostRpIndex i))) ∧
    (s.port = .readCp g i :: rest →
      (i < (s.header g).cols.toNat →
        step s = .next { s with port := rest, answer := some (.byte ((s.header g).cp.getD i 0)) }) ∧
      ((s.header g).cols.toNat ≤ i → step s = .refused (.hostCpIndex i)))

/-- The host reads of STATUS, RESULT and LOC answer the register and have no side effect (20_memory.md R52). -/
def Obligations.HostReadsResponse : Prop :=
  ∀ (s : State) (rest : List HostMove), s.busy = false →
    (s.port = .readStatus :: rest → step s = .next { s with port := rest, answer := some (.byte s.status) }) ∧
    (s.port = .readResult :: rest → step s = .next { s with port := rest, answer := some (.word s.result) }) ∧
    (s.port = .readLoc :: rest → step s = .next { s with port := rest, answer := some (.loc s.loc) })

/-- R57: a host access outside BUF or MSG is not admitted (no step; the names of the refusals are the model's, log
entry 9). And in a state of a run no command forms such an address: none faults on one (the fault is the model's form
of a write to it, log entry 10), the outcome does not depend on a byte outside BUF and MSG, and no such byte is
written. -/
def Obligations.HostAccessOutsideNotAdmitted : Prop :=
  (∀ (s : State) (a : Nat) (v : Byte) (rest : List HostMove), s.busy = false →
    (s.cfg.bufBytes ≤ a → s.port = .writeBuf a v :: rest ∨ s.port = .readBuf a :: rest →
      step s = .refused (.hostBufAddress a)) ∧
    (s.cfg.msgBytes ≤ a → s.port = .writeMsg a v :: rest ∨ s.port = .readMsg a :: rest →
      step s = .refused (.hostMsgAddress a))) ∧
  (∀ s : State, s.Inv → ¬ faults (step s)) ∧
  ∀ (i : Instr) (s : State) (buf msg : Memory), s.Inv →
    let s' : State := { s with buf := buf, msg := msg }
    (∀ a, a < s.cfg.bufBytes → s'.bufByte a = s.bufByte a) → (∀ a, a < s.cfg.msgBytes → s'.msgByte a = s.msgByte a) →
    ∃ t t', exec i s = .next t ∧ exec i s' = .next t' ∧
      sameSlots t t' ∧ t'.status = t.status ∧ t'.result = t.result ∧ t'.loc = t.loc ∧
      (∀ a, a < s.cfg.bufBytes → t'.bufByte a = t.bufByte a) ∧ (∀ a, a < s.cfg.msgBytes → t'.msgByte a = t.msgByte a) ∧
      (∀ a, s.cfg.bufBytes ≤ a → t.bufByte a = s.bufByte a ∧ t'.bufByte a = s'.bufByte a) ∧
      (∀ a, s.cfg.msgBytes ≤ a → t.msgByte a = s.msgByte a ∧ t'.msgByte a = s'.msgByte a)

/-- No host move but a reset is admitted while BUSY = 1 (70_reset_and_hazards.md R240; the refusal is the
model's form of it, log entry 7). -/
def Obligations.NoMoveWhileBusy : Prop :=
  ∀ (s : State) (m : HostMove) (rest : List HostMove), s.busy = true → s.port = m :: rest → m ≠ .reset →
    step s = .refused .hostWhileBusy

/-- R32: the state after reset; the bytes of BUF and MSG are the unspecified ones. -/
def Obligations.ResetValues : Prop :=
  (∀ g, State.reset.header g = { checksum := 0, rows := 0, cols := 0, rp := [], cp := [] }) ∧
  (∀ a, State.reset.bufByte a = Config.freeBuf 0 a) ∧ (∀ a, State.reset.msgByte a = Config.freeMsg 0 a) ∧
  State.reset.status = 0x00 ∧ State.reset.result = 0x00000000 ∧ State.reset.loc = 0 ∧ State.reset.busy = false

/-- A reset event, between commands or during one, leaves the reset state with BUF and MSG unspecified again,
and the parameters (70_reset_and_hazards.md section 1). -/
def Obligations.ResetEventResets : Prop :=
  ∀ (s : State) (w : CmdWord) (rest : List HostMove),
    s.port = .reset :: rest ∨ (s.busy = false ∧ s.port = .resetDuring w :: rest) →
    ∃ t, step s = .next t ∧ (∀ g, t.header g = Header.empty) ∧
      (∀ a, t.bufByte a = Config.freeBuf (s.epoch + 1) a) ∧ (∀ a, t.msgByte a = Config.freeMsg (s.epoch + 1) a) ∧
      t.status = 0 ∧ t.result = 0 ∧ t.loc = 0 ∧ t.busy = false ∧ t.cfg = s.cfg ∧ t.port = rest

/-! ### The commands -/

/-- `HCLR ha` makes the slot the empty placeholder and answers OK, 0; nothing else changes (40_parity_generator.md
section 4). -/
def Obligations.HclrClearsSlot : Prop :=
  ∀ (s : State) (ha : SlotField) (a : Slot), namesSlot ha a →
    ∃ t, exec (.hclr ha) s = .next t ∧
      t.header a = { checksum := 0, rows := 0, cols := 0, rp := [], cp := [] } ∧
      responds t 0x00 0 ∧ sameOtherSlots a s t ∧ sameBuf s t ∧ sameMsg s t ∧ t.loc = s.loc ∧ sameRest s t

/-- `PGEN ha, rows, cols` with dimensions in range: the slot holds the closed-form header of BUF[0..rows*cols),
RESULT is its checksum, and nothing else changes (40_parity_generator.md sections 2 and 4). -/
def Obligations.PgenDerivesHeader : Prop :=
  ∀ (s : State) (ha : SlotField) (a : Slot) (rows cols : Half), namesSlot ha a →
    1 ≤ rows.toNat → rows.toNat ≤ s.cfg.maxRows → 1 ≤ cols.toNat → cols.toNat ≤ s.cfg.maxCols →
    ∃ t, exec (.pgen ha rows cols) s = .next t ∧ isDerived (t.header a) s.bufByte rows cols ∧
      responds t 0x00 (t.header a).checksum ∧
      sameOtherSlots a s t ∧ sameBuf s t ∧ sameMsg s t ∧ t.loc = s.loc ∧ sameRest s t

/-- `PGEN` with a zero or over-capacity dimension ends with ERR_BAD_DIM and changes nothing but STATUS and
RESULT (60_exceptions.md section 1). -/
def Obligations.PgenBadDimension : Prop :=
  ∀ (s : State) (ha : SlotField) (a : Slot) (rows cols : Half), namesSlot ha a →
    rows = 0 ∨ cols = 0 ∨ s.cfg.maxRows < rows.toNat ∨ s.cfg.maxCols < cols.toNat →
    ∃ t, exec (.pgen ha rows cols) s = .next t ∧ responds t 0xE1 0 ∧ sameButResponse s t

/-- `CSUM`, `CCHK` and `HCMP` answer the recomputed checksum, whether it matches the stored one, and the equality
of two headers; they change nothing but STATUS and RESULT (41_checksum_compare.md section 2). For well-shaped headers
this is what the spec says, and the sums do not wrap (R123); on a header that is not well-shaped the spec defines no
sum and no equality, and the values stated here are the model's choice (log entry 15). -/
def Obligations.ReadOnlyCommandResults : Prop :=
  ∀ (s : State) (ha hb : SlotField) (a b : Slot), namesSlot ha a → namesSlot hb b →
    (∃ t, exec (.csum ha) s = .next t ∧ responds t 0x00 (BitVec.ofNat 32 (checksumNat (s.header a))) ∧
      sameButResponse s t) ∧
    (∃ t, exec (.cchk ha) s = .next t ∧
      responds t 0x00 (if (s.header a).checksum = BitVec.ofNat 32 (checksumNat (s.header a)) then 1 else 0) ∧
      sameButResponse s t) ∧
    (∃ t, exec (.hcmp ha hb) s = .next t ∧ responds t 0x00 (if s.header a = s.header b then 1 else 2) ∧
      sameButResponse s t)

/-- R128: `HCMP` with the same slot twice answers 1. -/
def Obligations.HcmpSameSlotEqual : Prop :=
  ∀ (s : State) (ha : SlotField) (a : Slot), namesSlot ha a →
    ∃ t, exec (.hcmp ha ha) s = .next t ∧ t.status = 0x00 ∧ t.result = 1

/-- `HSER ha` of a good slot writes the serialized header to MSG from address 0, answers its length, and changes
nothing else, the rest of MSG included (42_serializer.md section 2). -/
def Obligations.HserWritesMessage : Prop :=
  ∀ (s : State) (ha : SlotField) (a : Slot), namesSlot ha a →
    (s.header a).wellShaped → (s.header a).fits s.cfg →
    ∃ t, exec (.hser ha) s = .next t ∧
      t.status = 0x00 ∧ t.result.toNat = 20 + (s.header a).rows.toNat + (s.header a).cols.toNat ∧ t.busy = false ∧
      (∀ p, p < 20 + (s.header a).rows.toNat + (s.header a).cols.toNat →
        t.msgByte p = (serialize s.cfg.wireEndian (s.header a)).getD p 0) ∧
      (∀ p, 20 + (s.header a).rows.toNat + (s.header a).cols.toNat ≤ p → t.msgByte p = s.msgByte p) ∧
      sameSlots s t ∧ sameBuf s t ∧ t.loc = s.loc ∧ sameRest s t

/-- `HDES ha` on a message that passes every check loads the header and answers OK, 1; nothing else changes
(43_deserializer.md section 2). -/
def Obligations.HdesLoadsValidMessage : Prop :=
  ∀ (s : State) (ha : SlotField) (a : Slot) (h : Header), namesSlot ha a →
    h.wellShaped → h.consistent → h.fits s.cfg →
    (∀ p, p < 20 + h.rows.toNat + h.cols.toNat → s.msgByte p = (serialize s.cfg.wireEndian h).getD p 0) →
    ∃ t, exec (.hdes ha) s = .next t ∧ t.header a = h ∧ responds t 0x00 1 ∧
      sameOtherSlots a s t ∧ sameBuf s t ∧ sameMsg s t ∧ t.loc = s.loc ∧ sameRest s t

/-- R201: which message gives which failure code of `HDES`; each check is judged only when the earlier ones
pass. A failure leaves the block idle and everything but STATUS and RESULT as it was. -/
def Obligations.HdesFailureCodes : Prop :=
  ∀ (s : State) (ha : SlotField) (a : Slot), namesSlot ha a →
    ∃ t, exec (.hdes ha) s = .next t ∧
      let e := s.cfg.wireEndian
      let checksum := wireNat e s.msgByte 0 4
      let rows := wireNat e s.msgByte 4 2
      let cols := wireNat e s.msgByte 6 2
      let rp := memRead s.msgByte 20 rows
      let cp := memRead s.msgByte (20 + rows) cols
      let past3 := copiesAgree s.msgByte ∧ rows + cols ≤ checksum
      let pastCapacity := past3 ∧ rows ≤ s.cfg.maxRows ∧ cols ≤ s.cfg.maxCols
      let past4 := pastCapacity ∧ byteSum rp = wireNat e s.msgByte 16 4
      (t.status = 0x10 ↔ ¬ copiesAgree s.msgByte) ∧
      (t.status = 0x11 ↔ copiesAgree s.msgByte ∧ checksum < rows + cols) ∧
      (t.status = 0x12 ↔ past3 ∧ (s.cfg.maxRows < rows ∨ s.cfg.maxCols < cols)) ∧
      (t.status = 0x13 ↔ pastCapacity ∧ byteSum rp ≠ wireNat e s.msgByte 16 4) ∧
      (t.status = 0x14 ↔ past4 ∧ checksum ≠ rows + cols + byteSum rp + byteSum cp) ∧
      (t.status = 0x00 ↔ past4 ∧ checksum = rows + cols + byteSum rp + byteSum cp) ∧
      t.busy = false ∧ (t.status ≠ 0x00 → t.result = 0 ∧ sameButResponse s t)

/-- The deserializer reads no byte at or above `20 + rows + cols` (43_deserializer.md section 1). -/
def Obligations.DeserializerReadsOnlyTheMessage : Prop :=
  ∀ (cfg : Config) (m m' : Nat → Byte),
    (∀ p, p < 20 + wireNat cfg.wireEndian m 4 2 + wireNat cfg.wireEndian m 6 2 → m' p = m p) →
    deserializeCheck cfg m' = deserializeCheck cfg m

/-- `RPR ha, hb` on the syndrome of one flipped bit flips that bit of BUF, sets LOC and answers OK, 1; nothing
else changes (44_repair.md section 3). -/
def Obligations.RprFlipsLocatedBit : Prop :=
  ∀ (s : State) (ha hb : SlotField) (a b : Slot) (col row k : Nat), namesSlot ha a → namesSlot hb b →
    oneBitSyndrome (s.header a) (s.header b) col row k → (s.header a).fits s.cfg →
    ∃ t, exec (.rpr ha hb) s = .next t ∧ responds t 0x00 1 ∧
      t.bufByte (col * (s.header a).rows.toNat + row) =
        s.bufByte (col * (s.header a).rows.toNat + row) ^^^ (0x80#8 >>> k) ∧
      (∀ p, p ≠ col * (s.header a).rows.toNat + row → t.bufByte p = s.bufByte p) ∧
      t.loc.toNat = k * 2 ^ 32 + col * 2 ^ 16 + row ∧
      sameSlots s t ∧ sameMsg s t ∧ sameRest s t

/-- R202 and R203: which pair of headers gives which failure code of `RPR`, and when it is a no-op; a failure and
the no-op change nothing but STATUS and RESULT. -/
def Obligations.RprFailureCodes : Prop :=
  ∀ (s : State) (ha hb : SlotField) (a b : Slot), namesSlot ha a → namesSlot hb b →
    (s.header a).wellShaped → (s.header b).wellShaped → (s.header a).fits s.cfg →
    ∃ t, exec (.rpr ha hb) s = .next t ∧
      let T := s.header a
      let O := s.header b
      let cols := diffCount T.cols.toNat T.cp O.cp
      let rows := diffCount T.rows.toNat T.rp O.rp
      let past := T.consistent ∧ T ≠ O ∧ T.rows = O.rows ∧ T.cols = O.cols
      let bits := fun r => r < T.rows.toNat ∧ T.rp.getD r 0 ≠ O.rp.getD r 0 ∧ 2 ≤ ones (T.rp.getD r 0 ^^^ O.rp.getD r 0)
      (t.status = 0x20 ↔ ¬ T.consistent) ∧
      (t.status = 0x21 ↔ T.consistent ∧ T ≠ O ∧ (T.rows ≠ O.rows ∨ T.cols ≠ O.cols)) ∧
      (t.status = 0x22 ↔ past ∧ cols = 0) ∧
      (t.status = 0x23 ↔ past ∧ 2 ≤ cols) ∧
      (t.status = 0x24 ↔ past ∧ cols = 1 ∧ rows = 0) ∧
      (t.status = 0x25 ↔ past ∧ cols = 1 ∧ 2 ≤ rows) ∧
      (t.status = 0x26 ↔ past ∧ cols = 1 ∧ rows = 1 ∧ ∃ r, bits r) ∧
      (t.status = 0x00 ∧ t.result = 0 ↔ T.consistent ∧ T = O) ∧
      (t.status ≠ 0x00 → t.result = 0) ∧ (t.result = 0 → sameButResponse s t)

/-- R189: what the status of `RPR` tells of the two headers. -/
def Obligations.RprStatusTellsTheHeaders : Prop :=
  ∀ (s t : State) (ha hb : SlotField) (a b : Slot), namesSlot ha a → namesSlot hb b →
    exec (.rpr ha hb) s = .next t →
    (t.status ∈ [0x22#8, 0x23#8, 0x24#8, 0x25#8, 0x26#8] ∨ t.status = 0x00 → confirmChecksum (s.header a) = true) ∧
    (t.status ∈ [0x22#8, 0x23#8, 0x24#8, 0x25#8, 0x26#8] ∨ (t.status = 0x00 ∧ t.result = 1) →
      (s.header a).rows = (s.header b).rows ∧ (s.header a).cols = (s.header b).cols) ∧
    (t.status = 0x21 → hdrEq (s.header a) (s.header b) = false)

/-- R186: `RPR` with the same slot twice is `RPR_BAD_CHECKSUM` or the no-op. -/
def Obligations.RprSameSlot : Prop :=
  ∀ (s : State) (ha : SlotField) (a : Slot), namesSlot ha a → (s.header a).wellShaped →
    ∃ t, exec (.rpr ha ha) s = .next t ∧ sameButResponse s t ∧
      (¬ (s.header a).consistent → responds t 0x20 0) ∧ ((s.header a).consistent → responds t 0x00 0)

/-- An unencodable operand, a slot field of 2 or more, ends a command as an illegal word does (30_encoding.md
R73; the model's choice, log entry 11). -/
def Obligations.BadSlotFieldEndsIllegal : Prop :=
  ∀ (i : Instr) (s : State), i.wellFormed = false →
    ∃ t, exec i s = .next t ∧ responds t 0xE0 0 ∧ sameButResponse s t

/-- A command that would touch an address outside its space stops; no state of a run does (20_memory.md R47; the
model's choice, log entry 10). -/
def Obligations.AccessOutsideSpaceStops : Prop :=
  ∀ (s : State) (ha hb : SlotField) (a b : Slot) (col row k : Nat), namesSlot ha a → namesSlot hb b →
    (s.cfg.msgBytes < 20 + (s.header a).rp.length + (s.header a).cp.length → ∃ r, exec (.hser ha) s = .fault r) ∧
    (oneBitSyndrome (s.header a) (s.header b) col row k → s.cfg.bufBytes ≤ col * (s.header a).rows.toNat + row →
      ∃ r, exec (.rpr ha hb) s = .fault r)

/-! ### Whole-machine rules -/

/-- The invariant holds at reset. -/
def Obligations.InvAtReset : Prop := State.reset.Inv

/-- Every step keeps the invariant: legal parameters, well-shaped, consistent headers within capacity, canonical
memories inside their spaces, a legal status code, BUSY low (10_state.md section 1). -/
def Obligations.StepKeepsInv : Prop := ∀ s t : State, s.Inv → step s = .next t → t.Inv

/-- From the invariant no step faults, and every presented word, legal or not, is executed to its end
(60_exceptions.md section 3). -/
def Obligations.EveryWordCompletes : Prop :=
  ∀ s : State, s.Inv →
    ¬ faults (step s) ∧ (∀ w rest, s.port = .command w :: rest → ∃ t, step s = .next t ∧ t.port = rest)

/-- A command that ends with STATUS other than OK has changed nothing but STATUS and RESULT, and RESULT is 0
(60_exceptions.md sections 1 and 3). -/
def Obligations.FailureChangesNothing : Prop :=
  ∀ (i : Instr) (s t : State), exec i s = .next t → t.status ≠ 0x00 → t.result = 0 ∧ sameButResponse s t

/-- Every command ends with BUSY low and one of the status codes of R80. -/
def Obligations.CommandsEndWithAStatusCode : Prop :=
  ∀ (i : Instr) (s t : State), exec i s = .next t → t.busy = false ∧ isStatusCode t.status

/-- R29's write rule: only a flip of `RPR` changes LOC. -/
def Obligations.OnlyAFlipChangesLoc : Prop :=
  ∀ (i : Instr) (s t : State), exec i s = .next t → t.loc ≠ s.loc →
    (∃ ha hb, i = .rpr ha hb) ∧ t.status = 0x00 ∧ t.result = 1

/-- Only a successful `HCLR`, `PGEN` or `HDES` of that slot changes a slot (10_state.md section 1). -/
def Obligations.OnlyLoadsChangeASlot : Prop :=
  ∀ (i : Instr) (s t : State) (g : Slot), exec i s = .next t → t.header g ≠ s.header g →
    t.status = 0x00 ∧ ∃ ha, namesSlot ha g ∧ (i = .hclr ha ∨ (∃ rows cols, i = .pgen ha rows cols) ∨ i = .hdes ha)

/-- Only `HSER` changes MSG, by the serialized header from address 0, and only `RPR` changes BUF, by the located bit
of the located byte (20_memory.md sections 1 and 4). -/
def Obligations.WhoWritesTheMemories : Prop :=
  ∀ (i : Instr) (s t : State), exec i s = .next t →
    (¬ sameMsg s t → ∃ ha a, i = .hser ha ∧ namesSlot ha a ∧ sameBuf s t ∧
      ∀ p, t.msgByte p =
        if p < (serialize s.cfg.wireEndian (s.header a)).length
        then (serialize s.cfg.wireEndian (s.header a)).getD p 0 else s.msgByte p) ∧
    (¬ sameBuf s t → ∃ ha hb a b col row k, i = .rpr ha hb ∧ namesSlot ha a ∧ namesSlot hb b ∧ sameMsg s t ∧
      locate (s.header a) (s.header b) = .flip col row k ∧
      ∀ p, t.bufByte p =
        if p = flipAddr (s.header a).rows col row k then s.bufByte p ^^^ flipMask row k else s.bufByte p)

/-- No step changes the parameters (00_scope.md section 4). -/
def Obligations.ParametersAreFixed : Prop := ∀ s t : State, step s = .next t → t.cfg = s.cfg

/-- From the invariant `CCHK` always answers 1 and `RPR` never reports `RPR_BAD_CHECKSUM` (10_state.md section 1). -/
def Obligations.ChecksumNeverBadInARun : Prop :=
  ∀ (s : State) (ha hb : SlotField) (a b : Slot), s.Inv → namesSlot ha a → namesSlot hb b →
    (∃ t, exec (.cchk ha) s = .next t ∧ responds t 0x00 1) ∧
    (∃ t, exec (.rpr ha hb) s = .next t ∧ t.status ≠ 0x20)

/-! ### The parity generator -/

/-- `parity8` is 1 exactly for an odd number of 1 bits (R100), and its three laws (R102). -/
def Obligations.ParityOfAByte : Prop :=
  (∀ b : Byte, (parity8 b).toNat = ones b % 2) ∧
  (∀ a b : Byte, parity8 (a ^^^ b) = parity8 a ^^^ parity8 b) ∧
  (∀ k, k < 8 → parity8 (0x80#8 >>> k) = 1) ∧
  (∀ b m : Byte, ones m % 2 = 0 → parity8 (b ^^^ m) = parity8 b)

/-- R104: the single pass and the closed form give the same header. -/
def Obligations.DeriveClosedForm : Prop :=
  ∀ (buf : List Byte) (rows cols : Half), buf.length = rows.toNat * cols.toNat →
    isDerived (derive buf rows cols) (fun p => buf.getD p 0) rows cols ∧
    ∀ c, c < cols.toNat → (derive buf rows cols).cp.getD c 0 =
      parity8 (xorAll ((List.range rows.toNat).map fun r => buf.getD (c * rows.toNat + r) 0))

/-- R105: a derived header is well shaped and checksum-consistent, and its column elements are 0 or 1. -/
def Obligations.DerivedHeaderIsGood : Prop :=
  ∀ (buf : List Byte) (rows cols : Half), buf.length = rows.toNat * cols.toNat →
    (derive buf rows cols).wellShaped ∧ (derive buf rows cols).consistent ∧
    ∀ x, x ∈ (derive buf rows cols).cp → x = 0 ∨ x = 1

/-- Linearity (40_parity_generator.md section 2, R110 (a)): the parities of the bytewise XOR of two buffers are the
XOR of their parities, and the all-zero buffer has all-zero parities. -/
def Obligations.DeriveIsLinear : Prop :=
  ∀ (rows cols : Half) (x y : List Byte),
    x.length = rows.toNat * cols.toNat → y.length = rows.toNat * cols.toNat →
    (∀ r, (derive (xorBytes x y) rows cols).rp.getD r 0 =
      (derive x rows cols).rp.getD r 0 ^^^ (derive y rows cols).rp.getD r 0) ∧
    (∀ c, (derive (xorBytes x y) rows cols).cp.getD c 0 =
      (derive x rows cols).cp.getD c 0 ^^^ (derive y rows cols).cp.getD c 0) ∧
    derive (List.replicate (rows.toNat * cols.toNat) 0) rows cols =
      { checksum := rows.setWidth 32 + cols.setWidth 32, rows := rows, cols := cols,
        rp := List.replicate rows.toNat 0, cp := List.replicate cols.toNat 0 }

/-- The effect of one flipped bit (40_parity_generator.md section 2, R110 (b)): exactly one row element changes, by that
bit, and exactly one column element, by bit 0. The checksum changes too, but in one case: the bit is the least
significant one (position 7) and the two elements differ in bit 0, so that one goes up by 1 and the other down by 1.
Vector V81 of 95_test_vectors.md is such a case, so R110 (b)'s last words do not follow from R103 there (log entry 16). -/
def Obligations.OneFlippedBitInDerive : Prop :=
  ∀ (rows cols : Half) (x : List Byte) (c r k : Nat), x.length = rows.toNat * cols.toNat →
    c < cols.toNat → r < rows.toNat → k < 8 →
    let z := x.set (c * rows.toNat + r) (x.getD (c * rows.toNat + r) 0 ^^^ (0x80#8 >>> k))
    (derive z rows cols).rp = (derive x rows cols).rp.set r ((derive x rows cols).rp.getD r 0 ^^^ (0x80#8 >>> k)) ∧
    (derive z rows cols).cp = (derive x rows cols).cp.set c ((derive x rows cols).cp.getD c 0 ^^^ 1) ∧
    ((derive z rows cols).checksum = (derive x rows cols).checksum ↔
      k = 7 ∧ ((derive x rows cols).rp.getD r 0).toNat % 2 ≠ ((derive x rows cols).cp.getD c 0).toNat % 2)

/-- The total-parity law and the range of a derived checksum (40_parity_generator.md section 2, R110 (c) and (d)). -/
def Obligations.TotalParityOfDerive : Prop :=
  ∀ (rows cols : Half) (x : List Byte), x.length = rows.toNat * cols.toNat →
    xorAll ((derive x rows cols).rp.map parity8) = xorAll (derive x rows cols).cp ∧
    rows.toNat + cols.toNat ≤ (derive x rows cols).checksum.toNat ∧
    (derive x rows cols).checksum.toNat ≤ rows.toNat + cols.toNat + 255 * rows.toNat + cols.toNat

/-! ### The checksum, equality and the wire format -/

/-- R123: the checksum is the true sum, no 32-bit addition wraps, and the bounds of the sums. -/
def Obligations.ChecksumNeverWraps : Prop :=
  (∀ bytes : List Byte, bytes.length ≤ 65535 → (sum32 bytes).toNat = byteSum bytes ∧ byteSum bytes ≤ 16711425) ∧
  (∀ (buf : List Byte) (rows cols : Half), buf.length = rows.toNat * cols.toNat →
    (sum32 (derive buf rows cols).cp).toNat ≤ cols.toNat) ∧
  ∀ h : Header, h.wellShaped →
    (calcChecksum h).toNat = checksumNat h ∧ (sum32 h.rp).toNat = byteSum h.rp ∧ (sum32 h.cp).toNat = byteSum h.cp ∧
    (calcChecksum h).toNat ≤ 33553920 ∧ h.rows.toNat + h.cols.toNat ≤ (calcChecksum h).toNat ∧
    ((calcChecksum h).toNat = h.rows.toNat + h.cols.toNat ↔ ∀ x, x ∈ h.rp ++ h.cp → x = 0)

/-- R126: equality is an equivalence relation, it is equality of the serialized forms, equal headers confirm
alike, and between consistent headers the checksum comparison is implied by the rest. -/
def Obligations.EqualityOfHeaders : Prop :=
  (∀ a : Header, hdrEq a a = true) ∧
  (∀ a b : Header, hdrEq a b = true → hdrEq b a = true) ∧
  (∀ a b c : Header, hdrEq a b = true → hdrEq b c = true → hdrEq a c = true) ∧
  (∀ (e : Endian) (a b : Header), a.wellShaped → b.wellShaped → (hdrEq a b = true ↔ serialize e a = serialize e b)) ∧
  (∀ a b : Header, hdrEq a b = true → confirmChecksum a = confirmChecksum b) ∧
  (∀ a b : Header, a.consistent → b.consistent → a.rows = b.rows → a.cols = b.cols → a.rp = b.rp → a.cp = b.cp →
    a.checksum = b.checksum)

/-- The wire integers (20_memory.md section 3): each byte of an encoding, the value of a decoding, and that the two
are inverse, in both byte orders. -/
def Obligations.ByteOrderOfIntegers : Prop :=
  ∀ e : Endian,
    (∀ v : Half, (enc16 e v).length = 2 ∧ ∀ i, i < 2 → ((enc16 e v).getD i 0).toNat = wireByte e 2 v.toNat i) ∧
    (∀ v : Word, (enc32 e v).length = 4 ∧ ∀ i, i < 4 → ((enc32 e v).getD i 0).toNat = wireByte e 4 v.toNat i) ∧
    (∀ m a, (dec16 e (m a) (m (a + 1))).toNat = wireNat e m a 2) ∧
    (∀ m a, (dec32 e (m a) (m (a + 1)) (m (a + 2)) (m (a + 3))).toNat = wireNat e m a 4) ∧
    (∀ b0 b1 : Byte, enc16 e (dec16 e b0 b1) = [b0, b1]) ∧
    (∀ b0 b1 b2 b3 : Byte, enc32 e (dec32 e b0 b1 b2 b3) = [b0, b1, b2, b3]) ∧
    (∀ (v : Half) (b0 b1 : Byte), enc16 e v = [b0, b1] → dec16 e b0 b1 = v) ∧
    (∀ (v : Word) (b0 b1 b2 b3 : Byte), enc32 e v = [b0, b1, b2, b3] → dec32 e b0 b1 b2 b3 = v)

/-- R60: the byte at each offset of a serialized header. -/
def Obligations.WireFormatLayout : Prop :=
  ∀ (e : Endian) (h : Header), h.wellShaped →
    (serialize e h).length = 20 + h.rows.toNat + h.cols.toNat ∧
    let at' := fun p => ((serialize e h).getD p 0).toNat
    (∀ i, i < 4 → at' i = wireByte e 4 h.checksum.toNat i ∧ at' (8 + i) = wireByte e 4 h.checksum.toNat i) ∧
    (∀ i, i < 2 → at' (4 + i) = wireByte e 2 h.rows.toNat i ∧ at' (12 + i) = wireByte e 2 h.rows.toNat i) ∧
    (∀ i, i < 2 → at' (6 + i) = wireByte e 2 h.cols.toNat i ∧ at' (14 + i) = wireByte e 2 h.cols.toNat i) ∧
    (∀ i, i < 4 → at' (16 + i) = wireByte e 4 (byteSum h.rp) i) ∧
    (∀ i, i < h.rows.toNat → at' (20 + i) = (h.rp.getD i 0).toNat) ∧
    (∀ j, j < h.cols.toNat → at' (20 + h.rows.toNat + j) = (h.cp.getD j 0).toNat)

/-- R162: deserializing what was serialized gives the header back, for derived headers and for every well-shaped,
consistent header within capacity; what is accepted is the serialized form of what is loaded; and as commands. -/
def Obligations.HeaderRoundTrip : Prop :=
  (∀ (cfg : Config) (m : Nat → Byte) (buf : List Byte) (rows cols : Half), buf.length = rows.toNat * cols.toNat →
    1 ≤ rows.toNat → 1 ≤ cols.toNat → rows.toNat ≤ cfg.maxRows → cols.toNat ≤ cfg.maxCols →
    memRead m 0 (20 + rows.toNat + cols.toNat) = serialize cfg.wireEndian (derive buf rows cols) →
    deserializeCheck cfg m = .ok (derive buf rows cols) ∧ confirmChecksum (derive buf rows cols) = true) ∧
  (∀ (cfg : Config) (m : Nat → Byte) (h : Header), h.wellShaped → h.consistent → h.fits cfg →
    memRead m 0 (20 + h.rows.toNat + h.cols.toNat) = serialize cfg.wireEndian h → deserializeCheck cfg m = .ok h) ∧
  (∀ (cfg : Config) (m : Nat → Byte) (h : Header), deserializeCheck cfg m = .ok h →
    serialize cfg.wireEndian h = memRead m 0 (20 + h.rows.toNat + h.cols.toNat)) ∧
  (∀ (s : State) (ha hb : SlotField) (a b : Slot), s.Inv → namesSlot ha a → namesSlot hb b →
    ∃ t u, exec (.hser ha) s = .next t ∧ exec (.hdes hb) t = .next u ∧ u.status = 0x00 ∧
      hdrEq (u.header a) (u.header b) = true)

/-- R163: one flipped bit of a serialized header makes `HDES` fail, with a code determined by the region, and the
slots are unchanged; two flipped bits can go undetected: the message of one header with two bits flipped is accepted
as another header of the same dimensions. -/
def Obligations.SingleBitCorruptionDetected : Prop :=
  (∀ (s : State) (ha : SlotField) (a : Slot) (h : Header) (p k : Nat), namesSlot ha a →
    h.wellShaped → h.consistent → h.fits s.cfg → k < 8 → p < 20 + h.rows.toNat + h.cols.toNat →
    (∀ q, q < 20 + h.rows.toNat + h.cols.toNat → s.msgByte q =
      if q = p then (serialize s.cfg.wireEndian h).getD q 0 ^^^ (0x80#8 >>> k)
      else (serialize s.cfg.wireEndian h).getD q 0) →
    ∃ t, exec (.hdes ha) s = .next t ∧ sameSlots s t ∧ t.result = 0 ∧
      t.status = (if p < 16 then 0x10 else if p < 20 + h.rows.toNat then 0x13 else 0x14)) ∧
  ∃ h h' : Header, h.wellShaped ∧ h.consistent ∧ h'.wellShaped ∧ h'.rows = h.rows ∧ h'.cols = h.cols ∧ h' ≠ h ∧
    ((xorBytes (serialize .little h) (serialize .little h')).map ones).sum = 2 ∧
    ∀ m : Nat → Byte, memRead m 0 (20 + h.rows.toNat + h.cols.toNat) = serialize .little h' →
      deserializeCheck Config.standard m = .ok h'

/-! ### The repair engine -/

/-- R182: for every single-bit flip position, `repair` restores the buffer and names the position. -/
def Obligations.SingleBitRepaired : Prop :=
  ∀ (rows cols : Half) (x : List Byte) (c r k : Nat), x.length = rows.toNat * cols.toNat →
    c < cols.toNat → r < rows.toNat → k < 8 →
    let y := x.set (c * rows.toNat + r) (x.getD (c * rows.toNat + r) 0 ^^^ (0x80#8 >>> k))
    repair (derive x rows cols) (derive y rows cols) y = .flip c r k x

/-- The same as commands: `PGEN`, one bit of BUF flipped, `PGEN` into the other slot, `RPR`; every byte of BUF reads
as before the flip, and LOC names the position. -/
def Obligations.SingleBitRepairedByCommands : Prop :=
  ∀ (s : State) (ha hb : SlotField) (a b : Slot) (rows cols : Half) (c r k : Nat), namesSlot ha a → namesSlot hb b →
    a ≠ b → rows.toNat ≤ s.cfg.maxRows → cols.toNat ≤ s.cfg.maxCols → c < cols.toNat → r < rows.toNat → k < 8 →
    ∃ t u v, exec (.pgen ha rows cols) s = .next t ∧
      exec (.pgen hb rows cols)
        (t.setBuf (c * rows.toNat + r) (t.bufByte (c * rows.toNat + r) ^^^ (0x80#8 >>> k))) = .next u ∧
      exec (.rpr ha hb) u = .next v ∧ responds v 0x00 1 ∧ sameBuf s v ∧
      v.loc.toNat = k * 2 ^ 32 + c * 2 ^ 16 + r

/-- R178: step d is `buf[col*rows + row] ^ d`, where `d` is the XOR of the two row-parity bytes. -/
def Obligations.FlipIsRowDifference : Prop :=
  (∀ (rows : Half) (col row k : Nat), k < 8 →
    flipAddr rows col row k = col * rows.toNat + row ∧ flipMask row k = msbmask k) ∧
  (∀ (t o : Header) (col row k : Nat), locate t o = .flip col row k →
    k < 8 ∧ msbmask k = t.rp.getD row 0 ^^^ o.rp.getD row 0)

/-- R184: the flipped byte lies inside the buffer and inside BUF, and the address arithmetic does not wrap. -/
def Obligations.FlipAddressInsideBuffer : Prop :=
  ∀ (cfg : Config) (t o : Header) (col row k : Nat), cfg.inRange → t.wellShaped → t.fits cfg →
    locate t o = .flip col row k →
    col < t.cols.toNat ∧ row < t.rows.toNat ∧ flipAddr t.rows col row k ≤ t.rows.toNat * t.cols.toNat - 1 ∧
    flipAddr t.rows col row k < cfg.bufBytes ∧ flipAddr t.rows col row k ≤ 4294836224 ∧ bitRow row k ≤ 524279

/-- The stale-header hazard (44_repair.md section 4): a second `RPR` with the same slots after a flip flips the same
bit again and reports OK. -/
def Obligations.StaleRepairUndoesIt : Prop :=
  ∀ (s t : State) (ha hb : SlotField), exec (.rpr ha hb) s = .next t → t.status = 0x00 → t.result = 1 →
    ∃ u, exec (.rpr ha hb) t = .next u ∧ responds u 0x00 1 ∧ sameBuf s u ∧ u.loc = t.loc

/-- Two headers derived from buffers of the same dimensions never give `RPR_BAD_CHECKSUM`, `RPR_DIM_MISMATCH` or
`RPR_NO_ROW` (44_repair.md section 4). -/
def Obligations.DerivedHeadersNeverNoRow : Prop :=
  ∀ (rows cols : Half) (x y : List Byte), x.length = rows.toNat * cols.toNat → y.length = rows.toNat * cols.toNat →
    locate (derive x rows cols) (derive y rows cols) ∉
      [.fail .rprBadChecksum, .fail .rprDimMismatch, .fail .rprNoRow]
end

