-- ==== Sys2Proof/Laws/Bits.lean ====
section
/-! SUPPORT. The laws of the bit helpers: parity, masks, and XOR into a sequence. -/

namespace Sys2Proof.Machine

/-- The bit of `parity8` and the XOR of the eight bits (40_parity_generator.md R100, R102 (a)). -/
theorem parity8_xor (a b : Byte) : parity8 (a ^^^ b) = parity8 a ^^^ parity8 b := by
  have hom : ∀ x y : Bool, (BitVec.ofBool (x ^^ y)).setWidth 8 =
      ((BitVec.ofBool x).setWidth 8 ^^^ (BitVec.ofBool y).setWidth 8 : Byte) := by decide
  simp only [parity8, BitVec.getElem_xor, ← hom]
  congr 2
  have : Std.Commutative Bool.xor := ⟨Bool.xor_comm⟩
  ac_rfl

@[simp] theorem parity8_zero : parity8 0#8 = 0#8 := by decide

/-- A parity is 0 or 1. -/
theorem parity8_cases (b : Byte) : parity8 b = 0 ∨ parity8 b = 1 := by
  unfold parity8
  cases b[0] ^^ b[1] ^^ b[2] ^^ b[3] ^^ b[4] ^^ b[5] ^^ b[6] ^^ b[7]
  · exact .inl rfl
  · exact .inr rfl

theorem parity8_msbmask (k : Nat) (h : k < 8) : parity8 (msbmask k) = 1 := by
  revert k; decide

theorem msbmask_ne_zero (k : Nat) (h : k < 8) : msbmask k ≠ 0 := by
  revert k; decide

theorem popcount_msbmask (k : Nat) (h : k < 8) : popcount (msbmask k) = 1 := by
  revert k; decide

theorem msbPosition_msbmask (k : Nat) (h : k < 8) : msbPosition (msbmask k) = k := by
  revert k; decide

/-- A byte with one set bit is the mask of its MSB-first position (44_repair.md R176). -/
theorem msbmask_msbPosition (d : Byte) (h : popcount d = 1) : msbPosition d < 8 ∧ msbmask (msbPosition d) = d := by
  revert d; decide

/-! ### XOR into a sequence -/

@[simp] theorem length_xorAt (bs : List Byte) (i : Nat) (v : Byte) : (xorAt bs i v).length = bs.length := by
  induction bs generalizing i with
  | nil => rfl
  | cons b bs ih => cases i <;> simp [xorAt, ih]

/-- Element `i` takes the XOR and every other element is as before. -/
theorem getD_xorAt (bs : List Byte) (i j : Nat) (v : Byte) :
    (xorAt bs i v).getD j 0 = if j = i ∧ i < bs.length then bs.getD j 0 ^^^ v else bs.getD j 0 := by
  induction bs generalizing i j with
  | nil => simp [xorAt]
  | cons b bs ih =>
    cases i <;> cases j <;> simp [xorAt]
    rename_i i j
    simpa using ih i j

/-- XOR into a sequence is replacing the element by the XOR. -/
theorem xorAt_eq_set (bs : List Byte) (i : Nat) (v : Byte) : xorAt bs i v = bs.set i (bs.getD i 0 ^^^ v) := by
  induction bs generalizing i with
  | nil => rfl
  | cons b bs ih => cases i <;> simp [xorAt, ih]

/-- Two XORs commute. -/
theorem xorAt_comm (bs : List Byte) (i j : Nat) (v w : Byte) :
    xorAt (xorAt bs i v) j w = xorAt (xorAt bs j w) i v := by
  induction bs generalizing i j with
  | nil => rfl
  | cons b bs ih =>
    cases i <;> cases j <;> simp [xorAt, ih]
    rw [BitVec.xor_assoc, BitVec.xor_comm v w, BitVec.xor_assoc]

/-- The same XOR twice restores the sequence. -/
theorem xorAt_xorAt_self (bs : List Byte) (i : Nat) (v : Byte) : xorAt (xorAt bs i v) i v = bs := by
  induction bs generalizing i with
  | nil => rfl
  | cons b bs ih => cases i <;> simp [xorAt, ih]

/-- Lists of the same length with the same elements are equal. -/
theorem ext_getD (xs ys : List Byte) (h : xs.length = ys.length) (g : ∀ i, i < xs.length → xs.getD i 0 = ys.getD i 0) :
    xs = ys := by
  refine List.ext_getElem h fun i h1 h2 => ?_
  simpa [h1, h2] using g i h1

end Sys2Proof.Machine
end

