-- ==== Sys2Proof/Laws/State.lean ====
section
/-! SUPPORT. One lemma per field per update of the state, true by rfl: no proof unfolds a record update again. -/

namespace Sys2Proof.Machine.State

variable (s : State)

/-! ### `setBuf` -/

@[simp] theorem setBuf_cfg (a : Nat) (v : Byte) : (s.setBuf a v).cfg = s.cfg := rfl
@[simp] theorem setBuf_h0 (a : Nat) (v : Byte) : (s.setBuf a v).h0 = s.h0 := rfl
@[simp] theorem setBuf_h1 (a : Nat) (v : Byte) : (s.setBuf a v).h1 = s.h1 := rfl
@[simp] theorem setBuf_buf (a : Nat) (v : Byte) : (s.setBuf a v).buf = Memory.put s.buf a v := rfl
@[simp] theorem setBuf_msg (a : Nat) (v : Byte) : (s.setBuf a v).msg = s.msg := rfl
@[simp] theorem setBuf_status (a : Nat) (v : Byte) : (s.setBuf a v).status = s.status := rfl
@[simp] theorem setBuf_result (a : Nat) (v : Byte) : (s.setBuf a v).result = s.result := rfl
@[simp] theorem setBuf_loc (a : Nat) (v : Byte) : (s.setBuf a v).loc = s.loc := rfl
@[simp] theorem setBuf_busy (a : Nat) (v : Byte) : (s.setBuf a v).busy = s.busy := rfl
@[simp] theorem setBuf_port (a : Nat) (v : Byte) : (s.setBuf a v).port = s.port := rfl
@[simp] theorem setBuf_answer (a : Nat) (v : Byte) : (s.setBuf a v).answer = s.answer := rfl
@[simp] theorem setBuf_epoch (a : Nat) (v : Byte) : (s.setBuf a v).epoch = s.epoch := rfl
@[simp] theorem setBuf_header (a : Nat) (v : Byte) (h : Slot) : (s.setBuf a v).header h = s.header h := by cases h <;> rfl
@[simp] theorem setBuf_msgByte (a : Nat) (v : Byte) : (s.setBuf a v).msgByte = s.msgByte := rfl

/-! ### `setMsg` -/

@[simp] theorem setMsg_cfg (a : Nat) (v : Byte) : (s.setMsg a v).cfg = s.cfg := rfl
@[simp] theorem setMsg_h0 (a : Nat) (v : Byte) : (s.setMsg a v).h0 = s.h0 := rfl
@[simp] theorem setMsg_h1 (a : Nat) (v : Byte) : (s.setMsg a v).h1 = s.h1 := rfl
@[simp] theorem setMsg_buf (a : Nat) (v : Byte) : (s.setMsg a v).buf = s.buf := rfl
@[simp] theorem setMsg_msg (a : Nat) (v : Byte) : (s.setMsg a v).msg = Memory.put s.msg a v := rfl
@[simp] theorem setMsg_status (a : Nat) (v : Byte) : (s.setMsg a v).status = s.status := rfl
@[simp] theorem setMsg_result (a : Nat) (v : Byte) : (s.setMsg a v).result = s.result := rfl
@[simp] theorem setMsg_loc (a : Nat) (v : Byte) : (s.setMsg a v).loc = s.loc := rfl
@[simp] theorem setMsg_busy (a : Nat) (v : Byte) : (s.setMsg a v).busy = s.busy := rfl
@[simp] theorem setMsg_port (a : Nat) (v : Byte) : (s.setMsg a v).port = s.port := rfl
@[simp] theorem setMsg_answer (a : Nat) (v : Byte) : (s.setMsg a v).answer = s.answer := rfl
@[simp] theorem setMsg_epoch (a : Nat) (v : Byte) : (s.setMsg a v).epoch = s.epoch := rfl
@[simp] theorem setMsg_header (a : Nat) (v : Byte) (h : Slot) : (s.setMsg a v).header h = s.header h := by cases h <;> rfl
@[simp] theorem setMsg_bufByte (a : Nat) (v : Byte) : (s.setMsg a v).bufByte = s.bufByte := rfl

/-! ### `writeMsg` -/

@[simp] theorem writeMsg_cfg (a : Nat) (bytes : List Byte) : (s.writeMsg a bytes).cfg = s.cfg := rfl
@[simp] theorem writeMsg_h0 (a : Nat) (bytes : List Byte) : (s.writeMsg a bytes).h0 = s.h0 := rfl
@[simp] theorem writeMsg_h1 (a : Nat) (bytes : List Byte) : (s.writeMsg a bytes).h1 = s.h1 := rfl
@[simp] theorem writeMsg_buf (a : Nat) (bytes : List Byte) : (s.writeMsg a bytes).buf = s.buf := rfl
@[simp] theorem writeMsg_msg (a : Nat) (bytes : List Byte) : (s.writeMsg a bytes).msg = Memory.putAll s.msg a bytes := rfl
@[simp] theorem writeMsg_status (a : Nat) (bytes : List Byte) : (s.writeMsg a bytes).status = s.status := rfl
@[simp] theorem writeMsg_result (a : Nat) (bytes : List Byte) : (s.writeMsg a bytes).result = s.result := rfl
@[simp] theorem writeMsg_loc (a : Nat) (bytes : List Byte) : (s.writeMsg a bytes).loc = s.loc := rfl
@[simp] theorem writeMsg_busy (a : Nat) (bytes : List Byte) : (s.writeMsg a bytes).busy = s.busy := rfl
@[simp] theorem writeMsg_port (a : Nat) (bytes : List Byte) : (s.writeMsg a bytes).port = s.port := rfl
@[simp] theorem writeMsg_answer (a : Nat) (bytes : List Byte) : (s.writeMsg a bytes).answer = s.answer := rfl
@[simp] theorem writeMsg_epoch (a : Nat) (bytes : List Byte) : (s.writeMsg a bytes).epoch = s.epoch := rfl
@[simp] theorem writeMsg_header (a : Nat) (bytes : List Byte) (h : Slot) : (s.writeMsg a bytes).header h = s.header h := by cases h <;> rfl
@[simp] theorem writeMsg_bufByte (a : Nat) (bytes : List Byte) : (s.writeMsg a bytes).bufByte = s.bufByte := rfl

/-! ### `setLoc` -/

@[simp] theorem setLoc_cfg (v : LocWord) : (s.setLoc v).cfg = s.cfg := rfl
@[simp] theorem setLoc_h0 (v : LocWord) : (s.setLoc v).h0 = s.h0 := rfl
@[simp] theorem setLoc_h1 (v : LocWord) : (s.setLoc v).h1 = s.h1 := rfl
@[simp] theorem setLoc_buf (v : LocWord) : (s.setLoc v).buf = s.buf := rfl
@[simp] theorem setLoc_msg (v : LocWord) : (s.setLoc v).msg = s.msg := rfl
@[simp] theorem setLoc_status (v : LocWord) : (s.setLoc v).status = s.status := rfl
@[simp] theorem setLoc_result (v : LocWord) : (s.setLoc v).result = s.result := rfl
@[simp] theorem setLoc_loc (v : LocWord) : (s.setLoc v).loc = v := rfl
@[simp] theorem setLoc_busy (v : LocWord) : (s.setLoc v).busy = s.busy := rfl
@[simp] theorem setLoc_port (v : LocWord) : (s.setLoc v).port = s.port := rfl
@[simp] theorem setLoc_answer (v : LocWord) : (s.setLoc v).answer = s.answer := rfl
@[simp] theorem setLoc_epoch (v : LocWord) : (s.setLoc v).epoch = s.epoch := rfl
@[simp] theorem setLoc_header (v : LocWord) (h : Slot) : (s.setLoc v).header h = s.header h := by cases h <;> rfl
@[simp] theorem setLoc_bufByte (v : LocWord) : (s.setLoc v).bufByte = s.bufByte := rfl
@[simp] theorem setLoc_msgByte (v : LocWord) : (s.setLoc v).msgByte = s.msgByte := rfl

/-! ### `reply` -/

@[simp] theorem reply_cfg (v : Answer) : (s.reply v).cfg = s.cfg := rfl
@[simp] theorem reply_h0 (v : Answer) : (s.reply v).h0 = s.h0 := rfl
@[simp] theorem reply_h1 (v : Answer) : (s.reply v).h1 = s.h1 := rfl
@[simp] theorem reply_buf (v : Answer) : (s.reply v).buf = s.buf := rfl
@[simp] theorem reply_msg (v : Answer) : (s.reply v).msg = s.msg := rfl
@[simp] theorem reply_status (v : Answer) : (s.reply v).status = s.status := rfl
@[simp] theorem reply_result (v : Answer) : (s.reply v).result = s.result := rfl
@[simp] theorem reply_loc (v : Answer) : (s.reply v).loc = s.loc := rfl
@[simp] theorem reply_busy (v : Answer) : (s.reply v).busy = s.busy := rfl
@[simp] theorem reply_port (v : Answer) : (s.reply v).port = s.port := rfl
@[simp] theorem reply_answer (v : Answer) : (s.reply v).answer = some v := rfl
@[simp] theorem reply_epoch (v : Answer) : (s.reply v).epoch = s.epoch := rfl
@[simp] theorem reply_header (v : Answer) (h : Slot) : (s.reply v).header h = s.header h := by cases h <;> rfl
@[simp] theorem reply_bufByte (v : Answer) : (s.reply v).bufByte = s.bufByte := rfl
@[simp] theorem reply_msgByte (v : Answer) : (s.reply v).msgByte = s.msgByte := rfl

/-! ### `accept` -/

@[simp] theorem accept_cfg : (s.accept).cfg = s.cfg := rfl
@[simp] theorem accept_h0 : (s.accept).h0 = s.h0 := rfl
@[simp] theorem accept_h1 : (s.accept).h1 = s.h1 := rfl
@[simp] theorem accept_buf : (s.accept).buf = s.buf := rfl
@[simp] theorem accept_msg : (s.accept).msg = s.msg := rfl
@[simp] theorem accept_status : (s.accept).status = s.status := rfl
@[simp] theorem accept_result : (s.accept).result = s.result := rfl
@[simp] theorem accept_loc : (s.accept).loc = s.loc := rfl
@[simp] theorem accept_busy : (s.accept).busy = true := rfl
@[simp] theorem accept_port : (s.accept).port = s.port := rfl
@[simp] theorem accept_answer : (s.accept).answer = s.answer := rfl
@[simp] theorem accept_epoch : (s.accept).epoch = s.epoch := rfl
@[simp] theorem accept_header (h : Slot) : (s.accept).header h = s.header h := by cases h <;> rfl
@[simp] theorem accept_bufByte : (s.accept).bufByte = s.bufByte := rfl
@[simp] theorem accept_msgByte : (s.accept).msgByte = s.msgByte := rfl

/-! ### `finish` -/

@[simp] theorem finish_cfg (c : Code) (r : Word) : (s.finish c r).cfg = s.cfg := rfl
@[simp] theorem finish_h0 (c : Code) (r : Word) : (s.finish c r).h0 = s.h0 := rfl
@[simp] theorem finish_h1 (c : Code) (r : Word) : (s.finish c r).h1 = s.h1 := rfl
@[simp] theorem finish_buf (c : Code) (r : Word) : (s.finish c r).buf = s.buf := rfl
@[simp] theorem finish_msg (c : Code) (r : Word) : (s.finish c r).msg = s.msg := rfl
@[simp] theorem finish_status (c : Code) (r : Word) : (s.finish c r).status = c.bits := rfl
@[simp] theorem finish_result (c : Code) (r : Word) : (s.finish c r).result = r := rfl
@[simp] theorem finish_loc (c : Code) (r : Word) : (s.finish c r).loc = s.loc := rfl
@[simp] theorem finish_busy (c : Code) (r : Word) : (s.finish c r).busy = false := rfl
@[simp] theorem finish_port (c : Code) (r : Word) : (s.finish c r).port = s.port := rfl
@[simp] theorem finish_answer (c : Code) (r : Word) : (s.finish c r).answer = s.answer := rfl
@[simp] theorem finish_epoch (c : Code) (r : Word) : (s.finish c r).epoch = s.epoch := rfl
@[simp] theorem finish_header (c : Code) (r : Word) (h : Slot) : (s.finish c r).header h = s.header h := by cases h <;> rfl
@[simp] theorem finish_bufByte (c : Code) (r : Word) : (s.finish c r).bufByte = s.bufByte := rfl
@[simp] theorem finish_msgByte (c : Code) (r : Word) : (s.finish c r).msgByte = s.msgByte := rfl

/-! ### `done` -/

@[simp] theorem done_cfg (r : Word) : (s.done r).cfg = s.cfg := rfl
@[simp] theorem done_h0 (r : Word) : (s.done r).h0 = s.h0 := rfl
@[simp] theorem done_h1 (r : Word) : (s.done r).h1 = s.h1 := rfl
@[simp] theorem done_buf (r : Word) : (s.done r).buf = s.buf := rfl
@[simp] theorem done_msg (r : Word) : (s.done r).msg = s.msg := rfl
@[simp] theorem done_status (r : Word) : (s.done r).status = Code.bits .ok := rfl
@[simp] theorem done_result (r : Word) : (s.done r).result = r := rfl
@[simp] theorem done_loc (r : Word) : (s.done r).loc = s.loc := rfl
@[simp] theorem done_busy (r : Word) : (s.done r).busy = false := rfl
@[simp] theorem done_port (r : Word) : (s.done r).port = s.port := rfl
@[simp] theorem done_answer (r : Word) : (s.done r).answer = s.answer := rfl
@[simp] theorem done_epoch (r : Word) : (s.done r).epoch = s.epoch := rfl
@[simp] theorem done_header (r : Word) (h : Slot) : (s.done r).header h = s.header h := by cases h <;> rfl
@[simp] theorem done_bufByte (r : Word) : (s.done r).bufByte = s.bufByte := rfl
@[simp] theorem done_msgByte (r : Word) : (s.done r).msgByte = s.msgByte := rfl

/-! ### `raise` -/

@[simp] theorem raise_cfg (c : Code) : (s.raise c).cfg = s.cfg := rfl
@[simp] theorem raise_h0 (c : Code) : (s.raise c).h0 = s.h0 := rfl
@[simp] theorem raise_h1 (c : Code) : (s.raise c).h1 = s.h1 := rfl
@[simp] theorem raise_buf (c : Code) : (s.raise c).buf = s.buf := rfl
@[simp] theorem raise_msg (c : Code) : (s.raise c).msg = s.msg := rfl
@[simp] theorem raise_status (c : Code) : (s.raise c).status = c.bits := rfl
@[simp] theorem raise_result (c : Code) : (s.raise c).result = 0 := rfl
@[simp] theorem raise_loc (c : Code) : (s.raise c).loc = s.loc := rfl
@[simp] theorem raise_busy (c : Code) : (s.raise c).busy = false := rfl
@[simp] theorem raise_port (c : Code) : (s.raise c).port = s.port := rfl
@[simp] theorem raise_answer (c : Code) : (s.raise c).answer = s.answer := rfl
@[simp] theorem raise_epoch (c : Code) : (s.raise c).epoch = s.epoch := rfl
@[simp] theorem raise_header (c : Code) (h : Slot) : (s.raise c).header h = s.header h := by cases h <;> rfl
@[simp] theorem raise_bufByte (c : Code) : (s.raise c).bufByte = s.bufByte := rfl
@[simp] theorem raise_msgByte (c : Code) : (s.raise c).msgByte = s.msgByte := rfl

/-! ### `afterReset` -/

@[simp] theorem afterReset_cfg : (s.afterReset).cfg = s.cfg := rfl
@[simp] theorem afterReset_h0 : (s.afterReset).h0 = Header.empty := rfl
@[simp] theorem afterReset_h1 : (s.afterReset).h1 = Header.empty := rfl
@[simp] theorem afterReset_buf : (s.afterReset).buf = [] := rfl
@[simp] theorem afterReset_msg : (s.afterReset).msg = [] := rfl
@[simp] theorem afterReset_status : (s.afterReset).status = 0 := rfl
@[simp] theorem afterReset_result : (s.afterReset).result = 0 := rfl
@[simp] theorem afterReset_loc : (s.afterReset).loc = 0 := rfl
@[simp] theorem afterReset_busy : (s.afterReset).busy = false := rfl
@[simp] theorem afterReset_port : (s.afterReset).port = s.port := rfl
@[simp] theorem afterReset_answer : (s.afterReset).answer = none := rfl
@[simp] theorem afterReset_epoch : (s.afterReset).epoch = s.epoch + 1 := rfl

/-! ### `setHeader` -/

@[simp] theorem setHeader_cfg (h : Slot) (v : Header) : (s.setHeader h v).cfg = s.cfg := by cases h <;> rfl
@[simp] theorem setHeader_h0_same (v : Header) : (s.setHeader .h0 v).h0 = v := rfl
@[simp] theorem setHeader_h0_other (v : Header) : (s.setHeader .h1 v).h0 = s.h0 := rfl
@[simp] theorem setHeader_h1_same (v : Header) : (s.setHeader .h1 v).h1 = v := rfl
@[simp] theorem setHeader_h1_other (v : Header) : (s.setHeader .h0 v).h1 = s.h1 := rfl
@[simp] theorem setHeader_buf (h : Slot) (v : Header) : (s.setHeader h v).buf = s.buf := by cases h <;> rfl
@[simp] theorem setHeader_msg (h : Slot) (v : Header) : (s.setHeader h v).msg = s.msg := by cases h <;> rfl
@[simp] theorem setHeader_status (h : Slot) (v : Header) : (s.setHeader h v).status = s.status := by cases h <;> rfl
@[simp] theorem setHeader_result (h : Slot) (v : Header) : (s.setHeader h v).result = s.result := by cases h <;> rfl
@[simp] theorem setHeader_loc (h : Slot) (v : Header) : (s.setHeader h v).loc = s.loc := by cases h <;> rfl
@[simp] theorem setHeader_busy (h : Slot) (v : Header) : (s.setHeader h v).busy = s.busy := by cases h <;> rfl
@[simp] theorem setHeader_port (h : Slot) (v : Header) : (s.setHeader h v).port = s.port := by cases h <;> rfl
@[simp] theorem setHeader_answer (h : Slot) (v : Header) : (s.setHeader h v).answer = s.answer := by cases h <;> rfl
@[simp] theorem setHeader_epoch (h : Slot) (v : Header) : (s.setHeader h v).epoch = s.epoch := by cases h <;> rfl
@[simp] theorem setHeader_bufByte (h : Slot) (v : Header) : (s.setHeader h v).bufByte = s.bufByte := by cases h <;> rfl
@[simp] theorem setHeader_msgByte (h : Slot) (v : Header) : (s.setHeader h v).msgByte = s.msgByte := by cases h <;> rfl
@[simp] theorem setHeader_header_same (h : Slot) (v : Header) : (s.setHeader h v).header h = v := by cases h <;> rfl

theorem setHeader_header_other (h g : Slot) (v : Header) (hg : g ≠ h) : (s.setHeader h v).header g = s.header g := by
  cases h <;> cases g <;> first | rfl | exact absurd rfl hg

/-! ### `reset` -/

@[simp] theorem reset_header (h : Slot) : reset.header h = Header.empty := by cases h <;> rfl

/-- A property of both slots is a property of every slot. -/
theorem forall_header {p : Header → Prop} (h0 : p s.h0) (h1 : p s.h1) (h : Slot) : p (s.header h) := by
  cases h
  · exact h0
  · exact h1

end Sys2Proof.Machine.State
end

