-- ==== Sys2Proof/Laws/Operands.lean ====
section
/-! SUPPORT. What the operand forms can do: a legal slot field runs the body on its slot, any other ends as an illegal word. -/

namespace Sys2Proof.Machine

theorem slotOf_eq_some_iff (h : SlotField) (a : Slot) :
    slotOf h = some a ↔ h.toNat = (match a with | .h0 => 0 | .h1 => 1) := by
  revert h; cases a <;> decide

theorem slotOf_eq_none_iff (h : SlotField) : slotOf h = none ↔ h.legal = false := by
  revert h; decide

/-- Everything `onSlot` can answer. -/
theorem onSlot_cases (ha : SlotField) (s : State) (body : Slot → Host.Outcome State Fault Refusal) :
    (∃ a, slotOf ha = some a ∧ onSlot ha s body = body a) ∨
      (slotOf ha = none ∧ onSlot ha s body = .next (s.raise .errIllegalCmd)) := by
  unfold onSlot
  cases h : slotOf ha with
  | some a => exact .inl ⟨a, rfl, rfl⟩
  | none => exact .inr ⟨rfl, rfl⟩

theorem onSlot_some (ha : SlotField) (a : Slot) (s : State) (body : Slot → Host.Outcome State Fault Refusal)
    (h : slotOf ha = some a) : onSlot ha s body = body a := by simp [onSlot, h]

theorem onSlot_none (ha : SlotField) (s : State) (body : Slot → Host.Outcome State Fault Refusal)
    (h : slotOf ha = none) : onSlot ha s body = .next (s.raise .errIllegalCmd) := by simp [onSlot, h]

theorem onSlots_some (ha hb : SlotField) (a b : Slot) (s : State)
    (body : Slot → Slot → Host.Outcome State Fault Refusal) (h : slotOf ha = some a) (g : slotOf hb = some b) :
    onSlots ha hb s body = body a b := by simp [onSlots, onSlot, h, g]

/-- Everything `onSlots` can answer. -/
theorem onSlots_cases (ha hb : SlotField) (s : State) (body : Slot → Slot → Host.Outcome State Fault Refusal) :
    (∃ a b, slotOf ha = some a ∧ slotOf hb = some b ∧ onSlots ha hb s body = body a b) ∨
      ((slotOf ha = none ∨ slotOf hb = none) ∧ onSlots ha hb s body = .next (s.raise .errIllegalCmd)) := by
  unfold onSlots
  cases h : slotOf ha with
  | none => exact .inr ⟨.inl rfl, onSlot_none _ _ _ h⟩
  | some a =>
    rw [onSlot_some _ a _ _ h]
    cases g : slotOf hb with
    | none => exact .inr ⟨.inr rfl, onSlot_none _ _ _ g⟩
    | some b => exact .inl ⟨a, b, rfl, rfl, onSlot_some _ b _ _ g⟩

end Sys2Proof.Machine
end

