-- ==== Sys2Proof/Laws/Checksum.lean ====
section
/-! SUPPORT. The 32-bit sums are the sums over the natural numbers modulo 2^32, and equality of headers is equality. -/

namespace Sys2Proof.Machine

theorem sum32_eq_ofNat (bytes : List Byte) : sum32 bytes = BitVec.ofNat 32 (bytes.map BitVec.toNat).sum := by
  induction bytes with
  | nil => rfl
  | cons b bs ih =>
    rw [sum32, ih, List.map_cons, List.sum_cons]
    apply BitVec.eq_of_toNat_eq
    simp [BitVec.toNat_add, BitVec.toNat_setWidth]

/-- The checksum is the natural-number sum modulo 2^32. -/
theorem checksumOf_eq_ofNat (rows cols : Half) (rp cp : List Byte) :
    checksumOf rows cols rp cp =
      BitVec.ofNat 32 (rows.toNat + cols.toNat + (rp.map BitVec.toNat).sum + (cp.map BitVec.toNat).sum) := by
  rw [checksumOf, sum32_eq_ofNat, sum32_eq_ofNat]
  apply BitVec.eq_of_toNat_eq
  simp [BitVec.toNat_add, BitVec.toNat_setWidth]

/-- The sum of `n` bytes is at most `255 * n`. -/
theorem byteSum_le (bytes : List Byte) : (bytes.map BitVec.toNat).sum ≤ 255 * bytes.length := by
  induction bytes with
  | nil => simp
  | cons b bs ih =>
    have := b.isLt
    simp only [List.map_cons, List.sum_cons, List.length_cons]; omega

theorem byteSum_eq_zero_iff (bytes : List Byte) : (bytes.map BitVec.toNat).sum = 0 ↔ ∀ x ∈ bytes, x = 0 := by
  induction bytes with
  | nil => simp
  | cons b bs ih =>
    simp only [List.map_cons, List.sum_cons, Nat.add_eq_zero_iff, ih, List.mem_cons, forall_eq_or_imp]
    exact and_congr_left fun _ => ⟨fun h => BitVec.eq_of_toNat_eq h, fun h => by rw [h]; rfl⟩

/-- No sum of at most 65535 bytes wraps (41_checksum_compare.md R123). -/
theorem sum32_toNat (bytes : List Byte) (h : bytes.length ≤ 65535) :
    (sum32 bytes).toNat = (bytes.map BitVec.toNat).sum := by
  have := byteSum_le bytes
  rw [sum32_eq_ofNat, BitVec.toNat_ofNat, Nat.mod_eq_of_lt (by omega)]

/-- No checksum of two sequences of at most 65535 bytes wraps (41_checksum_compare.md R123). -/
theorem checksumOf_toNat (rows cols : Half) (rp cp : List Byte) (h : rp.length ≤ 65535) (g : cp.length ≤ 65535) :
    (checksumOf rows cols rp cp).toNat =
      rows.toNat + cols.toNat + (rp.map BitVec.toNat).sum + (cp.map BitVec.toNat).sum := by
  have h1 := byteSum_le rp
  have h2 := byteSum_le cp
  have h3 := rows.isLt
  have h4 := cols.isLt
  rw [checksumOf_eq_ofNat, BitVec.toNat_ofNat, Nat.mod_eq_of_lt (by omega)]

theorem Header.wellShaped.lengths {h : Header} (hs : h.wellShaped) : h.rp.length ≤ 65535 ∧ h.cp.length ≤ 65535 := by
  have h1 := h.rows.isLt
  have h2 := h.cols.isLt
  obtain ⟨h3, h4⟩ := hs
  omega

/-- On a well-shaped header `confirm_checksum` is consistency (10_state.md R23 (b)). -/
theorem confirmChecksum_iff {h : Header} (hs : h.wellShaped) : confirmChecksum h = true ↔ h.consistent := by
  obtain ⟨h1, h2⟩ := hs.lengths
  rw [confirmChecksum, beq_iff_eq, calcChecksum, ← BitVec.toNat_inj, checksumOf_toNat _ _ _ _ h1 h2]

/-- `hdr_eq` is equality of header values. -/
theorem hdrEq_iff (a b : Header) : hdrEq a b = true ↔ a = b := by
  cases a; cases b
  simp only [hdrEq, Bool.and_eq_true, beq_iff_eq, Header.mk.injEq]
  tauto

theorem hdrEq_eq_decide (a b : Header) : hdrEq a b = decide (a = b) := by
  rw [Bool.eq_iff_iff, hdrEq_iff, decide_eq_true_iff]

end Sys2Proof.Machine
end

