-- ==== Sys2Proof/Laws/Memory.lean ====
section
/-! SUPPORT. The laws of memory: read after write, nothing else moves, and every operation keeps the canonical form. -/

namespace Sys2Proof.Machine

namespace Memory

@[simp] theorem find_nil (a : Nat) : find [] a = none := rfl

/-- Reading the byte just written gives it. -/
theorem find_put_same (m : Memory) (a : Nat) (v : Byte) : find (put m a v) a = some v := by
  induction m with
  | nil => simp [put, find]
  | cons c m ih =>
    obtain ⟨b, u⟩ := c
    unfold put
    split_ifs with hlt heq
    · simp [find]
    · simp [find]
    · simpa [find, Ne.symm heq] using ih

/-- A write leaves every other address alone. -/
theorem find_put_other (m : Memory) (a b : Nat) (v : Byte) (h : b ≠ a) : find (put m a v) b = find m b := by
  induction m with
  | nil => simp [put, find, Ne.symm h]
  | cons c m ih =>
    obtain ⟨d, u⟩ := c
    unfold put
    split_ifs with hlt heq
    · simp [find, Ne.symm h]
    · subst heq; simp [find, Ne.symm h]
    · simp only [find]; split_ifs <;> [rfl; exact ih]

theorem find_put (m : Memory) (a b : Nat) (v : Byte) :
    find (put m a v) b = if b = a then some v else find m b := by
  split_ifs with h
  · subst h; exact find_put_same m b v
  · exact find_put_other m a b v h

/-- A byte sequence is found where it was written, and every other address is as before. -/
theorem find_putAll (bytes : List Byte) (m : Memory) (a b : Nat) :
    find (putAll m a bytes) b = if a ≤ b ∧ b < a + bytes.length then bytes[b - a]? else find m b := by
  induction bytes generalizing m a with
  | nil => simp [putAll]
  | cons v vs ih =>
    rw [putAll, ih, find_put]
    by_cases hb : b = a
    · subst hb; simp
    · by_cases hin : a ≤ b ∧ b < a + (v :: vs).length
      · have h1 : a + 1 ≤ b ∧ b < a + 1 + vs.length := by
          simp only [List.length_cons] at hin; omega
        rw [if_pos h1, if_pos hin, show b - a = (b - (a + 1)) + 1 by omega, List.getElem?_cons_succ]
      · have h1 : ¬ (a + 1 ≤ b ∧ b < a + 1 + vs.length) := by
          simp only [List.length_cons] at hin; omega
        rw [if_neg h1, if_neg hin, if_neg hb]

/-- The lower bound a canonical memory's head puts on its tail. -/
theorem wf_cons (a : Nat) (v : Byte) (m : Memory) :
    wf ((a, v) :: m) = true ↔ (∀ c ∈ m, a < c.1) ∧ wf m = true := by
  induction m generalizing a v with
  | nil => simp [wf]
  | cons c m ih =>
    obtain ⟨b, u⟩ := c
    simp only [wf, Bool.and_eq_true, decide_eq_true_eq, List.mem_cons, forall_eq_or_imp]
    constructor
    · rintro ⟨hab, h⟩
      exact ⟨⟨hab, fun c hc => lt_trans hab (((ih b u).1 h).1 c hc)⟩, h⟩
    · rintro ⟨⟨hab, -⟩, h⟩
      exact ⟨hab, h⟩

/-- What a memory lists after a write. -/
theorem mem_put (m : Memory) (a : Nat) (v : Byte) (c : Host.Cell) (h : c ∈ put m a v) : c = (a, v) ∨ c ∈ m := by
  induction m with
  | nil => simpa [put] using h
  | cons d m ih =>
    obtain ⟨b, u⟩ := d
    unfold put at h
    split_ifs at h <;> simp only [List.mem_cons] at h ⊢
    · exact h
    · tauto
    · rcases h with h | h
      · tauto
      · have := ih h; tauto

/-- A write keeps the canonical form. -/
theorem wf_put (m : Memory) (a : Nat) (v : Byte) (h : wf m = true) : wf (put m a v) = true := by
  induction m with
  | nil => simp [put, wf]
  | cons d m ih =>
    obtain ⟨b, u⟩ := d
    have hm := (wf_cons b u m).1 h
    unfold put
    split_ifs with hlt heq
    · refine (wf_cons a v _).2 ⟨fun c hc => ?_, h⟩
      rcases List.mem_cons.1 hc with rfl | hc
      · exact hlt
      · exact lt_trans hlt (hm.1 c hc)
    · subst heq; exact (wf_cons a v m).2 hm
    · refine (wf_cons b u _).2 ⟨fun c hc => ?_, ih hm.2⟩
      rcases mem_put m a v c hc with rfl | hc
      · simp only; omega
      · exact hm.1 c hc

/-- Writing a byte sequence keeps the canonical form. -/
theorem wf_putAll (bytes : List Byte) (m : Memory) (a : Nat) (h : wf m = true) : wf (putAll m a bytes) = true := by
  induction bytes generalizing m a with
  | nil => exact h
  | cons v vs ih => exact ih _ _ (wf_put m a v h)

theorem below_iff (m : Memory) (n : Nat) : below m n = true ↔ ∀ c ∈ m, c.1 < n := by
  simp [below]

/-- A write inside the space lists only addresses of the space. -/
theorem below_put (m : Memory) (a : Nat) (v : Byte) (n : Nat) (h : below m n = true) (ha : a < n) :
    below (put m a v) n = true := by
  rw [below_iff] at *
  intro c hc
  rcases mem_put m a v c hc with rfl | hc
  · exact ha
  · exact h c hc

/-- Writing a byte sequence inside the space lists only addresses of the space. -/
theorem below_putAll (bytes : List Byte) (m : Memory) (a n : Nat) (h : below m n = true)
    (ha : a + bytes.length ≤ n) : below (putAll m a bytes) n = true := by
  induction bytes generalizing m a with
  | nil => exact h
  | cons v vs ih =>
    simp only [List.length_cons] at ha
    exact ih _ _ (below_put m a v n h (by omega)) (by omega)

/-- Canonical memories that find the same bytes are equal. -/
theorem ext_of_wf (m n : Memory) (hm : wf m = true) (hn : wf n = true) (h : ∀ a, find m a = find n a) : m = n := by
  have none_of_lt : ∀ (m : Memory) (a : Nat), (∀ c ∈ m, a < c.1) → find m a = none := by
    intro m a
    induction m with
    | nil => simp
    | cons d m ih =>
      obtain ⟨b, u⟩ := d
      intro hlt
      simp only [List.mem_cons, forall_eq_or_imp] at hlt
      rw [find, if_neg (by omega), ih hlt.2]
  induction m generalizing n with
  | nil =>
    cases n with
    | nil => rfl
    | cons d n => obtain ⟨b, u⟩ := d; simpa [find] using h b
  | cons d m ih =>
    obtain ⟨b, u⟩ := d
    have hm' := (wf_cons b u m).1 hm
    cases n with
    | nil => simpa [find] using h b
    | cons e n =>
      obtain ⟨c, w⟩ := e
      have hn' := (wf_cons c w n).1 hn
      have hbc : b = c := by
        rcases lt_trichotomy b c with hlt | heq | hgt
        · have := h b
          rw [find, if_pos rfl, find, if_neg (by omega), none_of_lt n b fun c' hc' => lt_trans hlt (hn'.1 c' hc')] at this
          simp at this
        · exact heq
        · have := h c
          rw [find, if_neg (by omega), none_of_lt m c fun c' hc' => lt_trans hgt (hm'.1 c' hc'), find, if_pos rfl] at this
          simp at this
      subst hbc
      have huw : u = w := by simpa [find] using h b
      subst huw
      congr 1
      refine ih n hm'.2 hn'.2 fun a => ?_
      by_cases hab : b = a
      · subst hab; rw [none_of_lt m b hm'.1, none_of_lt n b hn'.1]
      · simpa [find, hab] using h a

end Memory

/-! ### Sequences of bytes -/

@[simp] theorem length_memRead (f : Nat → Byte) (a n : Nat) : (memRead f a n).length = n := by simp [memRead]

theorem getElem_memRead (f : Nat → Byte) (a n i : Nat) (h : i < (memRead f a n).length) :
    (memRead f a n)[i] = f (a + i) := by simp [memRead]

/-- A sequence read depends only on the bytes read. -/
theorem memRead_congr (f g : Nat → Byte) (a n : Nat) (h : ∀ i, i < n → f (a + i) = g (a + i)) :
    memRead f a n = memRead g a n := by
  refine List.map_congr_left fun i hi => h i (List.mem_range.1 hi)

/-- Reading a stretch that holds a sequence gives the sequence. -/
theorem memRead_eq_of_getElem? (f : Nat → Byte) (a : Nat) (bytes : List Byte)
    (h : ∀ i (hi : i < bytes.length), f (a + i) = bytes[i]) : memRead f a bytes.length = bytes := by
  refine List.ext_getElem (by simp) fun i h1 h2 => ?_
  rw [getElem_memRead, h i h2]

/-! ### One byte of BUF and of MSG after each write -/

theorem State.setBuf_bufByte (s : State) (a b : Nat) (v : Byte) :
    (s.setBuf a v).bufByte b = if b = a then v else s.bufByte b := by
  simp only [State.bufByte, State.setBuf, Memory.find_put]; split_ifs <;> rfl

theorem State.setMsg_msgByte (s : State) (a b : Nat) (v : Byte) :
    (s.setMsg a v).msgByte b = if b = a then v else s.msgByte b := by
  simp only [State.msgByte, State.setMsg, Memory.find_put]; split_ifs <;> rfl

/-- A byte of MSG after a sequence was written: inside it the sequence's byte, outside it the old one. -/
theorem State.writeMsg_msgByte (s : State) (a b : Nat) (bytes : List Byte) :
    (s.writeMsg a bytes).msgByte b =
      if a ≤ b ∧ b < a + bytes.length then bytes.getD (b - a) 0 else s.msgByte b := by
  simp only [State.msgByte, State.writeMsg, Memory.find_putAll]
  split_ifs with h
  · have : b - a < bytes.length := by omega
    simp [List.getElem?_eq_getElem this]
  · rfl

end Sys2Proof.Machine
end

