-- ==== Sys2Proof/Laws/Codec.lean ====
section
/-! SUPPORT. The serializer's lengths, and everything the deserializer can answer. -/

namespace Sys2Proof.Machine

@[simp] theorem length_enc16 (e : Endian) (v : Half) : (enc16 e v).length = 2 := by cases e <;> rfl

@[simp] theorem length_enc32 (e : Endian) (v : Word) : (enc32 e v).length = 4 := by cases e <;> rfl

@[simp] theorem length_prefixBytes (e : Endian) (h : Header) : (prefixBytes e h).length = 8 := by simp [prefixBytes]

/-- `20 + rows + cols` bytes on a well-shaped header (30_encoding.md R63). -/
@[simp] theorem length_serialize (e : Endian) (h : Header) :
    (serialize e h).length = 20 + h.rp.length + h.cp.length := by
  simp [serialize]; omega

/-- The message length as a 32-bit value does not wrap. -/
theorem messageLength_toNat (h : Header) : (messageLength h).toNat = 20 + h.rows.toNat + h.cols.toNat := by
  have h1 := h.rows.isLt
  have h2 := h.cols.isLt
  simp only [messageLength, BitVec.toNat_add, BitVec.toNat_setWidth]
  rw [show (20 : Word).toNat = 20 from rfl]
  omega

/-- The sum of two dimensions as a 32-bit value does not wrap (43_deserializer.md R155). -/
theorem dims_toNat (rows cols : Half) :
    (rows.setWidth 32 + cols.setWidth 32 : Word).toNat = rows.toNat + cols.toNat := by
  have h1 := rows.isLt
  have h2 := cols.isLt
  simp only [BitVec.toNat_add, BitVec.toNat_setWidth]
  omega

/-- Everything `deserialize_check` can answer: a failure code of the five with its cause, or the header of the
message, with every check passed. -/
theorem deserializeCheck_cases (cfg : Config) (m : Nat → Byte) :
    let checksum := dec32 cfg.wireEndian (m 0) (m 1) (m 2) (m 3)
    let rows := dec16 cfg.wireEndian (m 4) (m 5)
    let cols := dec16 cfg.wireEndian (m 6) (m 7)
    let rp := memRead m 20 rows.toNat
    let cp := memRead m (20 + rows.toNat) cols.toNat
    let rowsum := dec32 cfg.wireEndian (m 16) (m 17) (m 18) (m 19)
    let past1 := memRead m 0 8 = memRead m 8 8
    let past3 := past1 ∧ rows.toNat + cols.toNat ≤ checksum.toNat
    let pastCapacity := past3 ∧ rows.toNat ≤ cfg.maxRows ∧ cols.toNat ≤ cfg.maxCols
    let past4 := pastCapacity ∧ sum32 rp = rowsum
    (¬ past1 ∧ deserializeCheck cfg m = .error .desPrefixMismatch) ∨
    (past1 ∧ checksum.toNat < rows.toNat + cols.toNat ∧ deserializeCheck cfg m = .error .desDimBound) ∨
    (past3 ∧ (cfg.maxRows < rows.toNat ∨ cfg.maxCols < cols.toNat) ∧ deserializeCheck cfg m = .error .desCapacity) ∨
    (pastCapacity ∧ sum32 rp ≠ rowsum ∧ deserializeCheck cfg m = .error .desRowsumMismatch) ∨
    (past4 ∧ checksum ≠ checksumOf rows cols rp cp ∧ deserializeCheck cfg m = .error .desChecksumMismatch) ∨
    (past4 ∧ checksum = checksumOf rows cols rp cp ∧
      deserializeCheck cfg m = .ok { checksum := checksum, rows := rows, cols := cols, rp := rp, cp := cp }) := by
  intro checksum rows cols rp cp rowsum past1 past3 pastCapacity past4
  have hlt : checksum < rows.setWidth 32 + cols.setWidth 32 ↔ checksum.toNat < rows.toNat + cols.toNat := by
    rw [BitVec.lt_def, dims_toNat]
  by_cases h1 : past1
  swap
  · exact .inl ⟨h1, by unfold deserializeCheck; rw [if_pos h1]⟩
  refine .inr ?_
  have e1 : deserializeCheck cfg m =
      (if checksum < rows.setWidth 32 + cols.setWidth 32 then .error .desDimBound
      else if cfg.maxRows < rows.toNat ∨ cfg.maxCols < cols.toNat then .error .desCapacity
      else if sum32 rp ≠ rowsum then .error .desRowsumMismatch
      else if checksum ≠ checksumOf rows cols rp cp then .error .desChecksumMismatch
      else .ok { checksum := checksum, rows := rows, cols := cols, rp := rp, cp := cp }) := by
    unfold deserializeCheck; rw [if_neg (not_not.2 h1)]
  rw [e1]
  split_ifs with h3 hc h4 h6
  · exact .inl ⟨h1, hlt.1 h3, rfl⟩
  · exact .inr (.inl ⟨⟨h1, by rw [hlt] at h3; omega⟩, hc, rfl⟩)
  · exact .inr (.inr (.inl ⟨⟨⟨h1, by rw [hlt] at h3; omega⟩, by omega⟩, h4, rfl⟩))
  · exact .inr (.inr (.inr (.inl ⟨⟨⟨⟨h1, by rw [hlt] at h3; omega⟩, by omega⟩, not_not.1 h4⟩, h6, rfl⟩)))
  · exact .inr (.inr (.inr (.inr ⟨⟨⟨⟨h1, by rw [hlt] at h3; omega⟩, by omega⟩, not_not.1 h4⟩, not_not.1 h6, rfl⟩)))

/-- An accepted header is well shaped, consistent and within capacity (43_deserializer.md R150). -/
theorem deserializeCheck_ok_good (cfg : Config) (m : Nat → Byte) (h : Header) (hok : deserializeCheck cfg m = .ok h) :
    h.good cfg := by
  rcases deserializeCheck_cases cfg m with
    ⟨-, e⟩ | ⟨-, -, e⟩ | ⟨-, -, e⟩ | ⟨-, -, e⟩ | ⟨-, -, e⟩ | ⟨⟨⟨-, hfit⟩, -⟩, hck, e⟩
  all_goals rw [e] at hok; cases hok
  have hs : Header.wellShaped
      { checksum := dec32 cfg.wireEndian (m 0) (m 1) (m 2) (m 3), rows := dec16 cfg.wireEndian (m 4) (m 5),
        cols := dec16 cfg.wireEndian (m 6) (m 7),
        rp := memRead m 20 (dec16 cfg.wireEndian (m 4) (m 5)).toNat,
        cp := memRead m (20 + (dec16 cfg.wireEndian (m 4) (m 5)).toNat) (dec16 cfg.wireEndian (m 6) (m 7)).toNat } :=
    ⟨length_memRead _ _ _, length_memRead _ _ _⟩
  refine ⟨hs, (confirmChecksum_iff hs).1 ?_, hfit⟩
  rw [confirmChecksum, beq_iff_eq]
  exact hck

end Sys2Proof.Machine
end

