-- ==== Sys2Proof/Laws/Encoding.lean ====
section
/-! SUPPORT. The fields of the command word: format C holds its five fields, and a word is the format of its fields. -/

namespace Sys2Proof

@[simp] theorem opField_formatC (op : BitVec 8) (ha hb : SlotField) (rows cols : Half) :
    opField (formatC op ha hb rows cols) = op := by
  apply BitVec.eq_of_getLsbD_eq; intro i hi
  simp only [opField, formatC, BitVec.getLsbD_extractLsb', BitVec.getLsbD_append]
  have h : 40 + i - 16 - 16 - 4 - 4 = i := by omega
  rw [if_neg (by omega), if_neg (by omega), if_neg (by omega), if_neg (by omega), h]
  simp [hi]

@[simp] theorem haField_formatC (op : BitVec 8) (ha hb : SlotField) (rows cols : Half) :
    haField (formatC op ha hb rows cols) = ha := by
  apply BitVec.eq_of_getLsbD_eq; intro i hi
  simp only [haField, formatC, BitVec.getLsbD_extractLsb', BitVec.getLsbD_append]
  have h : 36 + i - 16 - 16 - 4 = i := by omega
  rw [if_neg (by omega), if_neg (by omega), if_neg (by omega), if_pos (by omega), h]
  simp [hi]

@[simp] theorem hbField_formatC (op : BitVec 8) (ha hb : SlotField) (rows cols : Half) :
    hbField (formatC op ha hb rows cols) = hb := by
  apply BitVec.eq_of_getLsbD_eq; intro i hi
  simp only [hbField, formatC, BitVec.getLsbD_extractLsb', BitVec.getLsbD_append]
  have h : 32 + i - 16 - 16 = i := by omega
  rw [if_neg (by omega), if_neg (by omega), if_pos (by omega), h]
  simp [hi]

@[simp] theorem rowsField_formatC (op : BitVec 8) (ha hb : SlotField) (rows cols : Half) :
    rowsField (formatC op ha hb rows cols) = rows := by
  apply BitVec.eq_of_getLsbD_eq; intro i hi
  simp only [rowsField, formatC, BitVec.getLsbD_extractLsb', BitVec.getLsbD_append]
  have h : 16 + i - 16 = i := by omega
  rw [if_neg (by omega), if_pos (by omega), h]
  simp [hi]

@[simp] theorem colsField_formatC (op : BitVec 8) (ha hb : SlotField) (rows cols : Half) :
    colsField (formatC op ha hb rows cols) = cols := by
  apply BitVec.eq_of_getLsbD_eq; intro i hi
  simp only [colsField, formatC, BitVec.getLsbD_extractLsb', BitVec.getLsbD_append]
  rw [if_pos (by omega)]
  simp [hi]

/-- Every word is the format of its own fields: no bit is left over. -/
theorem formatC_fields (w : CmdWord) :
    formatC (opField w) (haField w) (hbField w) (rowsField w) (colsField w) = w := by
  apply BitVec.eq_of_getLsbD_eq; intro i hi
  simp only [opField, haField, hbField, rowsField, colsField, formatC, BitVec.getLsbD_append,
    BitVec.getLsbD_extractLsb']
  split_ifs with h1 h2 h3 h4
  · simp [h1]
  · simp [h2, show 16 + (i - 16) = i by omega]
  · simp [h3, show 32 + (i - 16 - 16) = i by omega]
  · simp [h4, show 36 + (i - 16 - 16 - 4) = i by omega]
  · simp [show i - 16 - 16 - 4 - 4 < 8 by omega, show 40 + (i - 16 - 16 - 4 - 4) = i by omega]

/-- Two words with the same fields are the same word. -/
theorem word_ext (v w : CmdWord) (h0 : opField v = opField w) (h1 : haField v = haField w)
    (h2 : hbField v = hbField w) (h3 : rowsField v = rowsField w) (h4 : colsField v = colsField w) : v = w := by
  rw [← formatC_fields v, ← formatC_fields w, h0, h1, h2, h3, h4]

theorem opField_toNat (w : CmdWord) : (opField w).toNat = w.toNat / 2 ^ 40 := by
  have := w.isLt
  simp only [opField, BitVec.extractLsb'_toNat, Nat.shiftRight_eq_div_pow]
  omega

theorem haField_toNat (w : CmdWord) : (haField w).toNat = w.toNat / 2 ^ 36 % 16 := by
  simp [haField, BitVec.extractLsb'_toNat, Nat.shiftRight_eq_div_pow]

theorem hbField_toNat (w : CmdWord) : (hbField w).toNat = w.toNat / 2 ^ 32 % 16 := by
  simp [hbField, BitVec.extractLsb'_toNat, Nat.shiftRight_eq_div_pow]

theorem rowsField_toNat (w : CmdWord) : (rowsField w).toNat = w.toNat / 2 ^ 16 % 65536 := by
  simp [rowsField, BitVec.extractLsb'_toNat, Nat.shiftRight_eq_div_pow]

theorem colsField_toNat (w : CmdWord) : (colsField w).toNat = w.toNat % 65536 := by
  simp [colsField, BitVec.extractLsb'_toNat]

/-! ### What each part of the decoder answers -/

theorem decodeOneSlot_ok_iff (w : CmdWord) (mk : SlotField → Instr) (i : Instr) :
    decodeOneSlot w mk = .ok i ↔
      hbField w = 0 ∧ rowsField w = 0 ∧ colsField w = 0 ∧ (haField w).legal = true ∧ i = mk (haField w) := by
  unfold decodeOneSlot
  split_ifs with h1 h2
  · constructor
    · intro h; cases h
    · rintro ⟨ha, hb, hc, -⟩; rcases h1 with h | h | h <;> contradiction
  · simp only [not_or, not_not] at h1
    simp only [Except.ok.injEq, h1, h2, true_and]; exact eq_comm
  · simp [h2]

theorem decodeTwoSlots_ok_iff (w : CmdWord) (mk : SlotField → SlotField → Instr) (i : Instr) :
    decodeTwoSlots w mk = .ok i ↔
      rowsField w = 0 ∧ colsField w = 0 ∧ (haField w).legal = true ∧ (hbField w).legal = true ∧
        i = mk (haField w) (hbField w) := by
  unfold decodeTwoSlots
  split_ifs with h1 h2
  · constructor
    · intro h; cases h
    · rintro ⟨ha, hb, -⟩; rcases h1 with h | h <;> contradiction
  · simp only [not_or, not_not] at h1
    simp only [Bool.and_eq_true] at h2
    simp only [Except.ok.injEq, h1, h2, true_and]; exact eq_comm
  · simp only [Bool.and_eq_true] at h2
    constructor
    · intro h; cases h
    · rintro ⟨-, -, ha, hb, -⟩; exact absurd ⟨ha, hb⟩ h2

theorem decodePgen_ok_iff (w : CmdWord) (i : Instr) :
    decodePgen w = .ok i ↔
      hbField w = 0 ∧ (haField w).legal = true ∧ i = .pgen (haField w) (rowsField w) (colsField w) := by
  unfold decodePgen
  split_ifs with h1 h2
  · exact ⟨fun h => (nomatch h), fun h => absurd h.1 h1⟩
  · simp only [ne_eq, not_not] at h1
    simp only [Except.ok.injEq, h1, h2, true_and]; exact eq_comm
  · simp [h2]

theorem legal_iff (h : SlotField) : h.legal = true ↔ h.toNat < 2 := by simp [SlotField.legal]

end Sys2Proof
end

