-- ==== Sys2Proof/Laws/Parity.lean ====
section
/-! SUPPORT. The single pass of `derive`: its lengths, what each byte contributes, and what a changed byte changes. -/

namespace Sys2Proof.Machine

@[simp] theorem length_derivePass_rp (rows i : Nat) (buf rp cp : List Byte) :
    (derivePass rows i buf rp cp).1.length = rp.length := by
  induction buf generalizing i rp cp with
  | nil => rfl
  | cons b buf ih => rw [derivePass, ih, length_xorAt]

@[simp] theorem length_derivePass_cp (rows i : Nat) (buf rp cp : List Byte) :
    (derivePass rows i buf rp cp).2.length = cp.length := by
  induction buf generalizing i rp cp with
  | nil => rfl
  | cons b buf ih => rw [derivePass, ih, length_xorAt]

/-- The accumulators come out of the pass as they went in: XOR one before or after the pass. -/
theorem derivePass_xorAt_rp (rows i j : Nat) (v : Byte) (buf rp cp : List Byte) :
    derivePass rows i buf (xorAt rp j v) cp =
      (xorAt (derivePass rows i buf rp cp).1 j v, (derivePass rows i buf rp cp).2) := by
  induction buf generalizing i rp cp with
  | nil => rfl
  | cons b buf ih => rw [derivePass, xorAt_comm, ih, derivePass]

theorem derivePass_xorAt_cp (rows i j : Nat) (v : Byte) (buf rp cp : List Byte) :
    derivePass rows i buf rp (xorAt cp j v) =
      ((derivePass rows i buf rp cp).1, xorAt (derivePass rows i buf rp cp).2 j v) := by
  induction buf generalizing i rp cp with
  | nil => rfl
  | cons b buf ih => rw [derivePass, xorAt_comm, ih, derivePass]

/-- What the pass does with one more byte: it goes into its row and its parity into its column. -/
theorem derivePass_cons (rows i : Nat) (b : Byte) (buf rp cp : List Byte) :
    derivePass rows i (b :: buf) rp cp =
      (xorAt (derivePass rows (i + 1) buf rp cp).1 (i % rows) b,
        xorAt (derivePass rows (i + 1) buf rp cp).2 (i / rows) (parity8 b)) := by
  rw [derivePass, derivePass_xorAt_rp, derivePass_xorAt_cp]

/-- Changing byte `p` of the buffer by `v` changes its row element by `v` and its column element by the parity
of `v`, and nothing else. -/
theorem derivePass_xorAt_buf (rows i p : Nat) (v : Byte) (buf rp cp : List Byte) (hp : p < buf.length) :
    derivePass rows i (xorAt buf p v) rp cp =
      (xorAt (derivePass rows i buf rp cp).1 ((i + p) % rows) v,
        xorAt (derivePass rows i buf rp cp).2 ((i + p) / rows) (parity8 v)) := by
  have merge : ∀ (xs : List Byte) (j : Nat) (b v : Byte), xorAt xs j (b ^^^ v) = xorAt (xorAt xs j b) j v := by
    intro xs j b v
    induction xs generalizing j with
    | nil => rfl
    | cons x xs ih => cases j <;> simp [xorAt, ih, BitVec.xor_assoc]
  induction buf generalizing i p with
  | nil => simp at hp
  | cons b buf ih =>
    cases p with
    | zero => simp only [xorAt, derivePass_cons, parity8_xor, merge, Nat.add_zero]
    | succ p =>
      simp only [List.length_cons] at hp
      have h := ih (i + 1) p (by omega)
      rw [show i + 1 + p = i + (p + 1) by omega] at h
      simp only [xorAt, derivePass_cons, h]
      rw [xorAt_comm, xorAt_comm _ _ _ (parity8 v)]

/-! ### `derive` -/

theorem derive_rows (buf : List Byte) (rows cols : Half) : (derive buf rows cols).rows = rows := rfl

theorem derive_cols (buf : List Byte) (rows cols : Half) : (derive buf rows cols).cols = cols := rfl

theorem derive_checksum (buf : List Byte) (rows cols : Half) :
    (derive buf rows cols).checksum = calcChecksum (derive buf rows cols) := rfl

@[simp] theorem length_derive_rp (buf : List Byte) (rows cols : Half) :
    (derive buf rows cols).rp.length = rows.toNat := by simp [derive]

@[simp] theorem length_derive_cp (buf : List Byte) (rows cols : Half) :
    (derive buf rows cols).cp.length = cols.toNat := by simp [derive]

/-- A changed byte of the buffer changes one row element and one column element (40_parity_generator.md R110 (b)). -/
theorem derive_xorAt (buf : List Byte) (rows cols : Half) (p : Nat) (v : Byte) (hp : p < buf.length) :
    (derive (xorAt buf p v) rows cols).rp = xorAt (derive buf rows cols).rp (p % rows.toNat) v ∧
      (derive (xorAt buf p v) rows cols).cp = xorAt (derive buf rows cols).cp (p / rows.toNat) (parity8 v) := by
  simp only [derive, derivePass_xorAt_buf rows.toNat 0 p v buf _ _ hp, Nat.zero_add, and_self]

/-- Position `c * rows + r` is row `r` of column `c` (20_memory.md R42). -/
theorem position_row_col (rows c r : Nat) (h : r < rows) : (c * rows + r) % rows = r ∧ (c * rows + r) / rows = c := by
  constructor
  · rw [Nat.mul_comm, Nat.mul_add_mod, Nat.mod_eq_of_lt h]
  · rw [Nat.mul_comm, Nat.mul_add_div (by omega), Nat.div_eq_of_lt h, Nat.add_zero]

theorem position_lt (rows cols c r : Nat) (hc : c < cols) (hr : r < rows) : c * rows + r < rows * cols := by
  have : (c + 1) * rows ≤ cols * rows := Nat.mul_le_mul_right rows hc
  rw [Nat.mul_comm rows cols]
  rw [Nat.add_mul] at this
  omega

/-- The buffer of a state, byte by byte. -/
theorem length_buffer (s : State) (rows cols : Half) : (s.buffer rows cols).length = rows.toNat * cols.toNat := by
  simp [State.buffer]

theorem getD_buffer (s : State) (rows cols : Half) (p : Nat) (h : p < rows.toNat * cols.toNat) :
    (s.buffer rows cols).getD p 0 = s.bufByte p := by
  have hp : p < (s.buffer rows cols).length := by rw [length_buffer]; exact h
  rw [List.getD_eq_getElem?_getD, List.getElem?_eq_getElem hp, Option.getD_some]
  simp only [State.buffer, getElem_memRead, Nat.zero_add]

end Sys2Proof.Machine
end

