-- ==== Sys2Proof/Laws/Repair.lean ====
section
/-! SUPPORT. The scans of the locator and everything it can answer. -/

namespace Sys2Proof.Machine

/-- The scan lists, in order, the indices at which the sequences differ. -/
theorem diffFrom_eq (n i : Nat) (xs ys : List Byte) (hx : xs.length = n) (hy : ys.length = n) :
    diffFrom i xs ys = ((List.range n).filter fun j => xs.getD j 0 != ys.getD j 0).map (i + ·) := by
  induction n generalizing i xs ys with
  | zero =>
    rw [List.length_eq_zero_iff] at hx hy
    subst hx hy; rfl
  | succ n ih =>
    cases xs with
    | nil => simp at hx
    | cons x xs =>
      cases ys with
      | nil => simp at hy
      | cons y ys =>
        have h := ih (i + 1) xs ys (by simpa using hx) (by simpa using hy)
        have shift : ((List.range n).filter fun j => xs.getD j 0 != ys.getD j 0).map (i + 1 + ·) =
            (((List.range n).map Nat.succ).filter fun j => (x :: xs).getD j 0 != (y :: ys).getD j 0).map (i + ·) := by
          rw [List.filter_map, List.map_map]
          have e : ((fun j => (x :: xs).getD j 0 != (y :: ys).getD j 0) ∘ Nat.succ) =
              fun j => xs.getD j 0 != ys.getD j 0 := by
            funext j; simp
          rw [e]
          refine List.map_congr_left fun j _ => ?_
          simp only [Function.comp]; omega
        rw [diffFrom, h, List.range_succ_eq_map, List.filter_cons, shift]
        by_cases hxy : x = y
        · simp [hxy]
        · simp [hxy]

theorem diffIndices_eq (xs ys : List Byte) (h : xs.length = ys.length) :
    diffIndices xs ys = (List.range xs.length).filter fun j => xs.getD j 0 != ys.getD j 0 := by
  rw [diffIndices, diffFrom_eq xs.length 0 xs ys rfl h.symm]
  simp

/-- The indices found are those at which the sequences differ. -/
theorem mem_diffIndices (xs ys : List Byte) (h : xs.length = ys.length) (j : Nat) :
    j ∈ diffIndices xs ys ↔ j < xs.length ∧ xs.getD j 0 ≠ ys.getD j 0 := by
  rw [diffIndices_eq xs ys h, List.mem_filter, List.mem_range, bne_iff_ne]

/-- The indices found are below the length of the first sequence, whatever the second. -/
theorem lt_of_mem_diffFrom (i j : Nat) (xs ys : List Byte) (h : j ∈ diffFrom i xs ys) :
    i ≤ j ∧ j < i + xs.length ∧ xs.getD (j - i) 0 ≠ ys.getD (j - i) 0 := by
  induction xs generalizing i ys with
  | nil => simp [diffFrom] at h
  | cons x xs ih =>
    cases ys with
    | nil => simp [diffFrom] at h
    | cons y ys =>
      have tail : j ∈ diffFrom (i + 1) xs ys →
          i ≤ j ∧ j < i + (x :: xs).length ∧ (x :: xs).getD (j - i) 0 ≠ (y :: ys).getD (j - i) 0 := by
        intro h
        obtain ⟨h1, h2, h3⟩ := ih _ _ h
        refine ⟨by omega, by simp only [List.length_cons]; omega, ?_⟩
        rw [show j - i = (j - (i + 1)) + 1 by omega, List.getD_cons_succ, List.getD_cons_succ]
        exact h3
      rw [diffFrom] at h
      split_ifs at h with hxy
      · rcases List.mem_cons.1 h with rfl | h
        · exact ⟨le_rfl, by simp, by simpa using hxy⟩
        · exact tail h
      · exact tail h

/-- Everything the locator can answer, with the tests passed before (44_repair.md R171). -/
theorem locate_cases (t o : Header) :
    let past := confirmChecksum t = true ∧ t ≠ o ∧ t.rows = o.rows ∧ t.cols = o.cols
    (confirmChecksum t = false ∧ locate t o = .fail .rprBadChecksum) ∨
    (confirmChecksum t = true ∧ t = o ∧ locate t o = .noop) ∨
    (confirmChecksum t = true ∧ t ≠ o ∧ (t.rows ≠ o.rows ∨ t.cols ≠ o.cols) ∧
      locate t o = .fail .rprDimMismatch) ∨
    (past ∧ diffIndices t.cp o.cp = [] ∧ locate t o = .fail .rprNoColumn) ∨
    (past ∧ 2 ≤ (diffIndices t.cp o.cp).length ∧ locate t o = .fail .rprMultiColumn) ∨
    ∃ col, past ∧ diffIndices t.cp o.cp = [col] ∧
      ((diffIndices t.rp o.rp = [] ∧ locate t o = .fail .rprNoRow) ∨
       (2 ≤ (diffIndices t.rp o.rp).length ∧ locate t o = .fail .rprMultiRow) ∨
       ∃ row, diffIndices t.rp o.rp = [row] ∧
        ((popcount (t.rp.getD row 0 ^^^ o.rp.getD row 0) ≠ 1 ∧ locate t o = .fail .rprMultiBit) ∨
         (popcount (t.rp.getD row 0 ^^^ o.rp.getD row 0) = 1 ∧
          locate t o = .flip col row (msbPosition (t.rp.getD row 0 ^^^ o.rp.getD row 0))))) := by
  intro past
  unfold locate
  split_ifs with h1 h2 h3
  · exact .inl ⟨h1, rfl⟩
  · exact .inr (.inl ⟨by simpa using h1, (hdrEq_iff _ _).1 h2, rfl⟩)
  · exact .inr (.inr (.inl ⟨by simpa using h1, fun e => h2 ((hdrEq_iff _ _).2 e), h3, rfl⟩))
  · have hpast : past := by
      simp only [not_or, not_not] at h3
      exact ⟨by simpa using h1, fun e => h2 ((hdrEq_iff _ _).2 e), h3.1, h3.2⟩
    refine .inr (.inr (.inr ?_))
    rcases hc : diffIndices t.cp o.cp with - | ⟨col, - | ⟨col', cs⟩⟩
    · exact .inl ⟨hpast, rfl, rfl⟩
    · refine .inr (.inr ⟨col, hpast, rfl, ?_⟩)
      simp only [locateRow]
      rcases hr : diffIndices t.rp o.rp with - | ⟨row, - | ⟨row', rs⟩⟩
      · exact .inl ⟨rfl, rfl⟩
      · refine .inr (.inr ⟨row, rfl, ?_⟩)
        simp only [locateBit]
        split_ifs with hp
        · exact .inl ⟨hp, rfl⟩
        · exact .inr ⟨not_not.1 hp, rfl⟩
      · exact .inr (.inl ⟨by simp, rfl⟩)
    · exact .inr (.inl ⟨hpast, by simp, rfl⟩)

/-- A failure the locator reports is one of the seven codes of `RPR`, never `OK`. -/
theorem locate_fail_ne_ok (t o : Header) (c : Code) (h : locate t o = .fail c) :
    c ∈ [.rprBadChecksum, .rprDimMismatch, .rprNoColumn, .rprMultiColumn, .rprNoRow, .rprMultiRow, .rprMultiBit] := by
  rcases locate_cases t o with ⟨-, e⟩ | ⟨-, -, e⟩ | ⟨-, -, -, e⟩ | ⟨-, -, e⟩ | ⟨-, -, e⟩ |
    ⟨col, -, -, ⟨-, e⟩ | ⟨-, e⟩ | ⟨row, -, ⟨-, e⟩ | ⟨-, e⟩⟩⟩ <;> rw [e] at h <;> cases h <;> simp

/-- What a flip means: the one differing column, the one differing row, and its one differing bit. -/
theorem locate_flip (t o : Header) (col row k : Nat) (h : locate t o = .flip col row k) :
    confirmChecksum t = true ∧ t ≠ o ∧ t.rows = o.rows ∧ t.cols = o.cols ∧
      diffIndices t.cp o.cp = [col] ∧ diffIndices t.rp o.rp = [row] ∧
      k < 8 ∧ msbmask k = t.rp.getD row 0 ^^^ o.rp.getD row 0 := by
  rcases locate_cases t o with ⟨-, e⟩ | ⟨-, -, e⟩ | ⟨-, -, -, e⟩ | ⟨-, -, e⟩ | ⟨-, -, e⟩ |
    ⟨col', ⟨h1, h2, h3, h4⟩, hc, ⟨-, e⟩ | ⟨-, e⟩ | ⟨row', hr, ⟨-, e⟩ | ⟨hp, e⟩⟩⟩
  all_goals rw [e] at h; cases h
  obtain ⟨hk, hm⟩ := msbmask_msbPosition _ hp
  exact ⟨h1, h2, h3, h4, hc, hr, hk, hm⟩

/-- The located column and row are indices of the trusted header's sequences. -/
theorem locate_flip_lt (t o : Header) (col row k : Nat) (h : locate t o = .flip col row k) :
    col < t.cp.length ∧ row < t.rp.length := by
  obtain ⟨-, -, -, -, hc, hr, -, -⟩ := locate_flip t o col row k h
  have h1 := lt_of_mem_diffFrom 0 col t.cp o.cp (by rw [diffIndices] at hc; simp [hc])
  have h2 := lt_of_mem_diffFrom 0 row t.rp o.rp (by rw [diffIndices] at hr; simp [hr])
  omega

end Sys2Proof.Machine
end

