-- ==== Sys2Proof/Laws/Exec.lean ====
section
/-! SUPPORT. Everything a command can do, said once: the five forms of a next state. Every claim about what commands leave
alone goes through it. -/

namespace Sys2Proof.Machine

/-- The form of the next state of a command: `raise` alone, `done` alone, one slot loaded, the message written, or
one bit of BUF flipped. -/
inductive Effect (i : Instr) (s t : State) : Prop where
  /-- The command failed: nothing but STATUS, RESULT and BUSY. -/
  | failed (c : Code) (hc : c ≠ .ok) (ht : t = s.raise c)
  /-- The command answered: nothing but STATUS, RESULT and BUSY. -/
  | answered (v : Word) (hi : ∀ ha, i ≠ .hclr ha) (hv : ∀ ha hb, i = .rpr ha hb → v = 0) (ht : t = s.done v)
  /-- `HCLR`, `PGEN` or `HDES` loaded a header into its slot. -/
  | loaded (ha : SlotField) (a : Slot) (h : Header) (v : Word) (hs : slotOf ha = some a)
      (hi : (i = .hclr ha ∧ h = Header.empty) ∨
        (∃ rows cols, i = .pgen ha rows cols ∧ badDims s.cfg rows cols = false ∧
          h = derive (s.buffer rows cols) rows cols) ∨
        (i = .hdes ha ∧ deserializeCheck s.cfg s.msgByte = .ok h))
      (ht : t = (s.setHeader a h).done v)
  /-- `HSER` wrote the message of its slot. -/
  | serialized (ha : SlotField) (a : Slot) (hs : slotOf ha = some a) (hi : i = .hser ha)
      (hm : (serialize s.cfg.wireEndian (s.header a)).length ≤ s.cfg.msgBytes)
      (ht : t = (s.writeMsg 0 (serialize s.cfg.wireEndian (s.header a))).done (messageLength (s.header a)))
  /-- `RPR` flipped the located bit. -/
  | flipped (ha hb : SlotField) (a b : Slot) (col row k : Nat) (hsa : slotOf ha = some a) (hsb : slotOf hb = some b)
      (hi : i = .rpr ha hb) (hl : locate (s.header a) (s.header b) = .flip col row k)
      (hm : flipAddr (s.header a).rows col row k < s.cfg.bufBytes)
      (ht : t = ((s.setBuf (flipAddr (s.header a).rows col row k)
        (s.bufByte (flipAddr (s.header a).rows col row k) ^^^ flipMask row k)).setLoc (locWord k col row)).done 1)

/-- A next state of a command has one of the five forms. -/
theorem exec_effect (i : Instr) (s t : State) (h : exec i s = .next t) : Effect i s t := by
  have illegal : Code.errIllegalCmd ≠ .ok := by decide
  cases i with
  | hclr ha =>
    rcases onSlot_cases ha s (fun a => .next ((s.setHeader a Header.empty).done 0)) with ⟨a, hs, e⟩ | ⟨-, e⟩
    · rw [exec, execHclr, e] at h; cases h
      exact .loaded ha a _ _ hs (.inl ⟨rfl, rfl⟩) rfl
    · rw [exec, execHclr, e] at h; cases h; exact .failed _ illegal rfl
  | pgen ha rows cols =>
    rcases onSlot_cases ha s (fun a => .next (generate a rows cols s)) with ⟨a, hs, e⟩ | ⟨-, e⟩
    · rw [exec, execPgen, e] at h; cases h
      by_cases hb : badDims s.cfg rows cols = true
      · exact .failed .errBadDim (by decide) (by simp [generate, hb])
      · rw [Bool.not_eq_true] at hb
        exact .loaded ha a _ _ hs (.inr (.inl ⟨rows, cols, rfl, hb, rfl⟩)) (by simp [generate, hb]; rfl)
    · rw [exec, execPgen, e] at h; cases h; exact .failed _ illegal rfl
  | csum ha =>
    rcases onSlot_cases ha s (fun a => .next (s.done (calcChecksum (s.header a)))) with ⟨a, hs, e⟩ | ⟨-, e⟩
    · rw [exec, execCsum, e] at h; cases h
      exact .answered _ (fun _ => nofun) (fun _ _ => nofun) rfl
    · rw [exec, execCsum, e] at h; cases h; exact .failed _ illegal rfl
  | cchk ha =>
    rcases onSlot_cases ha s (fun a => .next (s.done (checkResult (confirmChecksum (s.header a)))))
      with ⟨a, hs, e⟩ | ⟨-, e⟩
    · rw [exec, execCchk, e] at h; cases h
      exact .answered _ (fun _ => nofun) (fun _ _ => nofun) rfl
    · rw [exec, execCchk, e] at h; cases h; exact .failed _ illegal rfl
  | hcmp ha hb =>
    rcases onSlots_cases ha hb s (fun a b => .next (s.done (compareResult (hdrEq (s.header a) (s.header b)))))
      with ⟨a, b, hs, hs', e⟩ | ⟨-, e⟩
    · rw [exec, execHcmp, e] at h; cases h
      exact .answered _ (fun _ => nofun) (fun _ _ => nofun) rfl
    · rw [exec, execHcmp, e] at h; cases h; exact .failed _ illegal rfl
  | hser ha =>
    rw [exec, execHser] at h
    cases hs : slotOf ha with
    | none => rw [onSlot_none _ _ _ hs] at h; cases h; exact .failed _ illegal rfl
    | some a =>
      rw [onSlot_some _ a _ _ hs] at h
      simp only [sendHeader] at h
      split_ifs at h with hm
      cases h
      exact .serialized ha a hs rfl hm rfl
  | hdes ha =>
    rcases onSlot_cases ha s (fun a => .next (deserializeInto a s)) with ⟨a, hs, e⟩ | ⟨-, e⟩
    · rw [exec, execHdes, e] at h; cases h
      rcases deserializeCheck_cases s.cfg s.msgByte with
        ⟨-, e⟩ | ⟨-, -, e⟩ | ⟨-, -, e⟩ | ⟨-, -, e⟩ | ⟨-, -, e⟩ | ⟨-, -, e⟩
      · exact .failed .desPrefixMismatch (by decide) (by simp [deserializeInto, e])
      · exact .failed .desDimBound (by decide) (by simp [deserializeInto, e])
      · exact .failed .desCapacity (by decide) (by simp [deserializeInto, e])
      · exact .failed .desRowsumMismatch (by decide) (by simp [deserializeInto, e])
      · exact .failed .desChecksumMismatch (by decide) (by simp [deserializeInto, e])
      · exact .loaded ha a _ _ hs (.inr (.inr ⟨rfl, e⟩)) (by simp [deserializeInto, e]; rfl)
    · rw [exec, execHdes, e] at h; cases h; exact .failed _ illegal rfl
  | rpr ha hb =>
    rw [exec, execRpr] at h
    rcases onSlots_cases ha hb s (fun a b => repairBuf (s.header a) (s.header b) s) with ⟨a, b, hs, hs', e⟩ | ⟨-, e⟩
    · rw [e, repairBuf] at h
      cases hl : locate (s.header a) (s.header b) with
      | fail c =>
        simp only [hl] at h; cases h
        refine .failed c (fun hc => ?_) rfl
        have := locate_fail_ne_ok _ _ _ hl
        rw [hc] at this; simp at this
      | noop => simp only [hl] at h; cases h; exact .answered 0 (fun _ => nofun) (fun _ _ _ => rfl) rfl
      | flip col row k =>
        simp only [hl, flipBit] at h
        split_ifs at h with hm
        cases h
        exact .flipped ha hb a b col row k hs hs' rfl hl hm rfl
    · rw [e] at h; cases h; exact .failed _ illegal rfl

/-- One byte of BUF after a flip: the flipped byte and no other. -/
theorem flip_bufByte (s : State) (a : Nat) (v w : Byte) (l : LocWord) (p : Nat) :
    (((s.setBuf a (v ^^^ w)).setLoc l).done 1).bufByte p = if p = a then v ^^^ w else s.bufByte p := by
  rw [State.done_bufByte, State.setLoc_bufByte, State.setBuf_bufByte]

end Sys2Proof.Machine
end

