-- ==== Sys2Proof/Laws/PerInstr.lean ====
section
/-! SUPPORT. Statements made once for every command, by one lemma per constructor. -/

namespace Sys2Proof.Laws

/-- The number `op` of a command (30_encoding.md R71). -/
def opcodeOf : Instr → BitVec 8
  | .hclr _ => 0x01
  | .pgen _ _ _ => 0x02
  | .csum _ => 0x03
  | .cchk _ => 0x04
  | .hcmp _ _ => 0x05
  | .hser _ => 0x06
  | .hdes _ => 0x07
  | .rpr _ _ => 0x08

/-- The operands `ha`, `hb`, `rows`, `cols` of a command, zero where it uses none (30_encoding.md R71). -/
def operandsOf : Instr → SlotField × SlotField × Half × Half
  | .hclr ha => (ha, 0, 0, 0)
  | .pgen ha rows cols => (ha, 0, rows, cols)
  | .csum ha => (ha, 0, 0, 0)
  | .cchk ha => (ha, 0, 0, 0)
  | .hcmp ha hb => (ha, hb, 0, 0)
  | .hser ha => (ha, 0, 0, 0)
  | .hdes ha => (ha, 0, 0, 0)
  | .rpr ha hb => (ha, hb, 0, 0)

namespace Fields

/-- The word of a command carries its opcode and its operands, and zero in every unused field. -/
def Statement (i : Instr) : Prop :=
  opField (encode i) = opcodeOf i ∧
  (haField (encode i), hbField (encode i), rowsField (encode i), colsField (encode i)) = operandsOf i

theorem hclr (ha : SlotField) : Statement (.hclr ha) := by simp [Statement, encode, opcodeOf, operandsOf]

theorem pgen (ha : SlotField) (rows cols : Half) : Statement (.pgen ha rows cols) := by
  simp [Statement, encode, opcodeOf, operandsOf]

theorem csum (ha : SlotField) : Statement (.csum ha) := by simp [Statement, encode, opcodeOf, operandsOf]

theorem cchk (ha : SlotField) : Statement (.cchk ha) := by simp [Statement, encode, opcodeOf, operandsOf]

theorem hcmp (ha hb : SlotField) : Statement (.hcmp ha hb) := by simp [Statement, encode, opcodeOf, operandsOf]

theorem hser (ha : SlotField) : Statement (.hser ha) := by simp [Statement, encode, opcodeOf, operandsOf]

theorem hdes (ha : SlotField) : Statement (.hdes ha) := by simp [Statement, encode, opcodeOf, operandsOf]

theorem rpr (ha hb : SlotField) : Statement (.rpr ha hb) := by simp [Statement, encode, opcodeOf, operandsOf]

end Fields

end Sys2Proof.Laws
end

