-- ==== Sys2Proof/Laws/Step.lean ====
section
/-! SUPPORT. Everything a host move and a step can do, said once. -/

namespace Sys2Proof.Machine

/-- The form of the next state after a host move. -/
inductive MoveEffect (m : HostMove) (s t : State) : Prop where
  /-- A legal command word ran. -/
  | command (w : CmdWord) (i : Instr) (hm : m = .command w) (hb : s.busy = false) (hd : decode w = .ok i)
      (ht : exec i s.accept = .next t)
  /-- An illegal command word ended with `ERR_ILLEGAL_CMD`. -/
  | illegal (w : CmdWord) (e : DecodeError) (hm : m = .command w) (hb : s.busy = false) (hd : decode w = .error e)
      (ht : t = s.accept.raise .errIllegalCmd)
  /-- The host wrote a byte of BUF. -/
  | wroteBuf (a : Nat) (v : Byte) (hm : m = .writeBuf a v) (hb : s.busy = false) (ha : a < s.cfg.bufBytes)
      (ht : t = s.setBuf a v)
  /-- The host wrote a byte of MSG. -/
  | wroteMsg (a : Nat) (v : Byte) (hm : m = .writeMsg a v) (hb : s.busy = false) (ha : a < s.cfg.msgBytes)
      (ht : t = s.setMsg a v)
  /-- The host read something. -/
  | replied (v : Answer) (hb : s.busy = false) (ht : t = s.reply v)
  /-- A reset event. -/
  | reset (ht : t = s.afterReset)

/-- A move answers only when the block is idle, and then what its body answers. -/
theorem whenIdle_next (s t : State) (o : Host.Outcome State Fault Refusal) (h : whenIdle s o = .next t) :
    s.busy = false ∧ o = .next t := by
  unfold whenIdle at h
  cases hb : s.busy <;> simp_all

/-- A next state of a host move has one of the six forms. -/
theorem hostMove_effect (m : HostMove) (s t : State) (h : hostMove m s = .next t) : MoveEffect m s t := by
  have replies : ∀ v : Answer, whenIdle s (.next (s.reply v)) = .next t → MoveEffect m s t := by
    intro v hv
    obtain ⟨hb, e⟩ := whenIdle_next _ _ _ hv
    cases e; exact .replied v hb rfl
  cases m with
  | command w =>
    obtain ⟨hb, e⟩ := whenIdle_next _ _ _ h
    unfold runCommand at e
    cases hd : decode w with
    | ok i => rw [hd] at e; exact .command w i rfl hb hd e
    | error r => rw [hd] at e; cases e; exact .illegal w r rfl hb hd rfl
  | writeBuf a v =>
    obtain ⟨hb, e⟩ := whenIdle_next _ _ _ h
    unfold onBuf at e; split_ifs at e with ha; cases e
    exact .wroteBuf a v rfl hb ha rfl
  | readBuf a =>
    obtain ⟨hb, e⟩ := whenIdle_next _ _ _ h
    unfold onBuf at e; split_ifs at e with ha; cases e
    exact .replied _ hb rfl
  | writeMsg a v =>
    obtain ⟨hb, e⟩ := whenIdle_next _ _ _ h
    unfold onMsg at e; split_ifs at e with ha; cases e
    exact .wroteMsg a v rfl hb ha rfl
  | readMsg a =>
    obtain ⟨hb, e⟩ := whenIdle_next _ _ _ h
    unfold onMsg at e; split_ifs at e with ha; cases e
    exact .replied _ hb rfl
  | readStatus => exact replies _ h
  | readResult => exact replies _ h
  | readLoc => exact replies _ h
  | readChecksum g => exact replies _ h
  | readRows g => exact replies _ h
  | readCols g => exact replies _ h
  | readRp g i =>
    obtain ⟨hb, e⟩ := whenIdle_next _ _ _ h
    unfold readRpElement at e; split_ifs at e; cases e
    exact .replied _ hb rfl
  | readCp g j =>
    obtain ⟨hb, e⟩ := whenIdle_next _ _ _ h
    unfold readCpElement at e; split_ifs at e; cases e
    exact .replied _ hb rfl
  | reset => cases h; exact .reset rfl
  | resetDuring w =>
    obtain ⟨hb, e⟩ := whenIdle_next _ _ _ h
    cases e; exact .reset rfl

theorem step_idle (s : State) (h : s.port = []) : step s = .next s := by simp [step, h]

theorem step_move (s : State) (m : HostMove) (rest : List HostMove) (h : s.port = m :: rest) :
    step s = hostMove m { s with port := rest } := by simp [step, h]

/-- The memories of the reset state are canonical. -/
theorem reset_memories_wf : Memory.wf State.reset.buf = true ∧ Memory.wf State.reset.msg = true := ⟨rfl, rfl⟩

end Sys2Proof.Machine
end

