-- ==== Sys2Proof/Tests/Slice0.lean ====
section
/-! SUPPORT. The model's own tests, and the witnesses of the hypotheses of the claims. Expected values are those of
95_test_vectors.md (V, S and P numbers), of the rules' examples, or of hand calculation from the rules. -/

namespace Sys2Proof.Tests

open Sys2Proof Sys2Proof.Machine Sys2Proof.Claims

/-! ### Small states and headers -/

/-- A field of the next state, if there is one. -/
def after {α : Type} (o : Host.Outcome State Fault Refusal) (f : State → α) : Option α :=
  match o with
  | .next t => some (f t)
  | .fault _ => none
  | .refused _ => none

/-- The reason of a refusal, if there is one. -/
def refusal (o : Host.Outcome State Fault Refusal) : Option Refusal :=
  match o with
  | .next _ => none
  | .fault _ => none
  | .refused r => some r

/-- The reset state with the capacities of the small vectors (V71, P5). -/
def small : State := { State.reset with cfg := { maxRows := 8, maxCols := 8, wireEndian := .little } }

/-- `small` with bytes in BUF from address 0. -/
def withBuf (bytes : List Byte) (s : State) : State := { s with buf := Memory.putAll [] 0 bytes }

/-- `s` with bytes in MSG from address 0. -/
def withMsg (bytes : List Byte) (s : State) : State := { s with msg := Memory.putAll [] 0 bytes }

/-- `s` with two header slots. -/
def withSlots (h0 h1 : Header) (s : State) : State := { s with h0 := h0, h1 := h1 }

/-- `s` with one move of the host to come. -/
def withMove (m : HostMove) (s : State) : State := { s with port := [m] }

/-- The buffer of V11. -/
def bufV11 : List Byte := [0x12, 0x34, 0x56, 0x78, 0x9A, 0xBC, 0xDE, 0xF0, 0x0F]

/-- The header of V11. -/
def hdrV11 : Header := { checksum := 511, rows := 3, cols := 3, rp := [0xB4, 0x5E, 0xE5], cp := [1, 1, 0] }

/-- The message `M0` of section 2.5: the serialized header of V11. -/
def msgM0 : List Byte :=
  [0xFF, 0x01, 0, 0, 3, 0, 3, 0, 0xFF, 0x01, 0, 0, 3, 0, 3, 0, 0xF7, 0x01, 0, 0, 0xB4, 0x5E, 0xE5, 1, 1, 0]

/-- The trusted header of the scenario S1 and its observed header (V80). -/
def hdrS1 : Header := { checksum := 6, rows := 3, cols := 3, rp := [0, 0, 0], cp := [0, 0, 0] }
def hdrV80 : Header := { checksum := 23, rows := 3, cols := 3, rp := [0, 0x10, 0], cp := [0, 1, 0] }

/-- The scenario S1: the corrupted buffer and both headers. -/
def stateS1 : State := withSlots hdrS1 hdrV80 (withBuf [0, 0, 0, 0, 0x10, 0, 0, 0, 0] small)

/-- An observed header beside the trusted one of S1. -/
def observed (checksum : Word) (rp cp : List Byte) : Header :=
  { checksum := checksum, rows := 3, cols := 3, rp := rp, cp := cp }

/-! ### Decoding: each command's word written out field by field from R70 to R72 -/

theorem test_decode_hclr : decode (0b00000001#8 ++ 0b0001#4 ++ 0b0000#4 ++ 0#16 ++ 0#16) = .ok (.hclr 1) := by decide
theorem test_decode_pgen : decode 0x021000030005 = .ok (.pgen 1 3 5) := by decide
theorem test_decode_csum : decode 0x030000000000 = .ok (.csum 0) := by decide
theorem test_decode_cchk : decode 0x041000000000 = .ok (.cchk 1) := by decide
theorem test_decode_hcmp : decode 0x051000000000 = .ok (.hcmp 1 0) := by decide
theorem test_decode_hser : decode 0x061000000000 = .ok (.hser 1) := by decide
theorem test_decode_hdes : decode 0x070000000000 = .ok (.hdes 0) := by decide
theorem test_decode_rpr : decode 0x080100000000 = .ok (.rpr 0 1) := by decide

/-- Section 2.7 of 95_test_vectors.md: every illegal word of the table, in its order. -/
theorem test_illegal_words :
    ([0x000000000000, 0x090000000000, 0xFF0000000000, 0x012000000000, 0x010100000000, 0x010000000001, 0x020100030003,
      0x022000030003, 0x050200000000, 0x082100000000, 0x080100010000, 0x060000000100].map decode) =
    [.error .badOpcode, .error .badOpcode, .error .badOpcode, .error .badSlot, .error .unusedFieldNotZero,
      .error .unusedFieldNotZero, .error .unusedFieldNotZero, .error .badSlot, .error .badSlot, .error .badSlot,
      .error .unusedFieldNotZero, .error .unusedFieldNotZero] := by decide

/-- An illegal word as a step: STATUS 0xE0, RESULT 0 (R73). -/
theorem test_illegal_step :
    after (step (withMove (.command 0x082100000000) { small with result := 7 })) (fun t => (t.status, t.result, t.busy)) =
      some (0xE0, 0, false) := by decide

/-! ### Well-formedness: an ill-formed term for each check -/

theorem test_wf_hclr : Instr.wellFormed (.hclr 2) = false := by decide
theorem test_wf_pgen : Instr.wellFormed (.pgen 2 3 3) = false := by decide
theorem test_wf_csum : Instr.wellFormed (.csum 4) = false := by decide
theorem test_wf_cchk : Instr.wellFormed (.cchk 8) = false := by decide
theorem test_wf_hcmp_ha : Instr.wellFormed (.hcmp 2 1) = false := by decide
theorem test_wf_hcmp_hb : Instr.wellFormed (.hcmp 1 2) = false := by decide
theorem test_wf_hser : Instr.wellFormed (.hser 15) = false := by decide
theorem test_wf_hdes : Instr.wellFormed (.hdes 2) = false := by decide
theorem test_wf_rpr_ha : Instr.wellFormed (.rpr 2 0) = false := by decide
theorem test_wf_rpr_hb : Instr.wellFormed (.rpr 0 2) = false := by decide

/-! ### One step of each command -/

/-- The example of R107. -/
theorem test_hclr : after (exec (.hclr 1) (withSlots hdrS1 hdrV11 small)) (fun t => (t.h0, t.h1, t.status, t.result)) =
    some (hdrS1, Header.empty, 0, 0) := by decide

/-- V11. -/
theorem test_pgen : after (exec (.pgen 0 3 3) (withBuf bufV11 small)) (fun t => (t.h0, t.status, t.result)) =
    some (hdrV11, 0, 0x1FF) := by decide

/-- Section 2.2: `PGEN H0, 9, 1` with `MAX_ROWS = 8`. -/
theorem test_pgen_capacity : after (exec (.pgen 0 9 1) (withSlots hdrV11 hdrS1 small)) (fun t => (t.h0, t.status, t.result)) =
    some (hdrV11, 0xE1, 0) := by decide

/-- V24: a `cp` element counts with its byte value; the stored checksum is not read and not updated. -/
theorem test_csum :
    after (exec (.csum 1) (withSlots hdrS1 { checksum := 9, rows := 1, cols := 1, rp := [0], cp := [0xFF] } small))
      (fun t => (t.h1.checksum, t.status, t.result)) = some (9, 0, 257) := by decide

/-- V22: a wrong stored checksum is the answer 0, not a failure. -/
theorem test_cchk :
    after (exec (.cchk 0) (withSlots { hdrV11 with checksum := 510 } hdrS1 small)) (fun t => (t.status, t.result)) =
      some (0, 0) := by decide

/-- V27: same checksum, other dimensions. -/
theorem test_hcmp :
    after (exec (.hcmp 0 1) (withSlots hdrS1 { checksum := 6, rows := 2, cols := 4, rp := [0, 0], cp := [0, 0, 0, 0] } small))
      (fun t => (t.status, t.result)) = some (0, 2) := by decide

/-- V11's serialized form, and R142: the byte after it keeps its old value. -/
theorem test_hser :
    after (exec (.hser 0) (withSlots hdrV11 hdrS1 (withMsg (List.replicate 27 0xEE) small)))
      (fun t => (memRead t.msgByte 0 27, t.result)) = some (msgM0 ++ [0xEE], 26) := by decide

/-- V41: the big-endian form. -/
theorem test_hser_big :
    after (exec (.hser 0) { withSlots hdrV11 hdrS1 small with cfg := { maxRows := 8, maxCols := 8, wireEndian := .big } })
      (fun t => memRead t.msgByte 0 26) =
    some [0, 0, 0x01, 0xFF, 0, 3, 0, 3, 0, 0, 0x01, 0xFF, 0, 3, 0, 3, 0, 0, 0x01, 0xF7, 0xB4, 0x5E, 0xE5, 1, 1, 0] := by
  decide

/-- V66: an offsetting pair in `W_RP` is accepted, the wrong header loaded. -/
theorem test_hdes :
    after (exec (.hdes 0) (withMsg ((msgM0.set 20 0xB5).set 21 0x5D) small)) (fun t => (t.h0, t.status, t.result)) =
      some ({ hdrV11 with rp := [0xB5, 0x5D, 0xE5] }, 0, 1) := by decide

/-- V57: checksum 6 passes the strict bound of step 3 and fails the last check; the slot is unchanged. -/
theorem test_hdes_bound :
    after (exec (.hdes 0) (withSlots hdrS1 hdrS1 (withMsg ((((msgM0.set 0 6).set 1 0).set 8 6).set 9 0) small)))
      (fun t => (t.h0, t.status, t.result)) = some (hdrS1, 0x14, 0) := by decide

/-- V86: dimensions 2 by 5, offset 9, mask 02. -/
theorem test_rpr :
    after (exec (.rpr 0 1) (withSlots
        { checksum := 194, rows := 2, cols := 5, rp := [0x99, 0x22], cp := [0, 0, 0, 0, 0] }
        { checksum := 193, rows := 2, cols := 5, rp := [0x99, 0x20], cp := [0, 0, 0, 0, 1] }
        (withBuf [0x11, 0x22, 0x33, 0x44, 0x55, 0x66, 0x77, 0x88, 0x99, 0xA8] small)))
      (fun t => (memRead t.bufByte 0 10, t.loc, t.result)) =
    some ([0x11, 0x22, 0x33, 0x44, 0x55, 0x66, 0x77, 0x88, 0x99, 0xAA], 0x600040001, 1) := by decide

/-- V101: the checksum of the trusted header is tested before equality. -/
theorem test_rpr_bad_checksum :
    after (exec (.rpr 0 0) (withSlots { hdrS1 with checksum := 7 } hdrS1 small)) (fun t => (t.status, t.result)) =
      some (0x20, 0) := by decide

/-- A host write and a host read (R48, R49). -/
theorem test_host_write :
    after (step (withMove (.writeBuf 63 0xAB) small)) (fun t => (t.bufByte 63, t.port)) = some (0xAB, []) := by decide

/-- The last byte of BUF is there, the one after it is not (R57). -/
theorem test_host_outside :
    refusal (step (withMove (.writeBuf 64 0xAB) small)) = some (.hostBufAddress 64) := by decide

/-- The table of section 2.1. -/
theorem test_parity8 :
    ([0x00, 0x01, 0x02, 0x03, 0x07, 0x0F, 0x10, 0x55, 0x7F, 0x80, 0x81, 0xAA, 0xB4, 0xFE, 0xFF].map parity8) =
      [0, 1, 1, 0, 1, 0, 1, 0, 1, 1, 0, 0, 0, 1, 0] := by decide

/-- R75: a comment, a hexadecimal immediate, an immediate out of range. -/
theorem test_assemble :
    (assemble ["; P1", "PGEN H0, 0x3, 3 ; describe"], assemble ["PGEN H0, 65536, 3"]) =
      (some [0x020000030003], none) := by decide

/-- The parameters are the default ones of R5, with the sizes it computes. -/
theorem test_sizes : (State.reset.cfg.bufBytes, State.reset.cfg.msgBytes) = (4294836225, 131090) := by decide

/-! ### Witnesses: each claim's hypotheses are met, at the ends of their ranges -/

/-- Both slots have a name, the legal values of a slot field. -/
theorem wit_namesSlot : namesSlot 0 .h0 ∧ namesSlot 1 .h1 := ⟨rfl, rfl⟩

theorem wit_DecodeEncodeRoundTrip :
    Instr.wellFormed (.pgen 1 0xFFFF 0xFFFF) = true ∧ Instr.wellFormed (.rpr 1 1) = true := by decide

theorem wit_EncodeDecodeRoundTrip : decode 0x0210FFFF0000 = .ok (.pgen 1 0xFFFF 0) := by decide

/-- A word for each row of the map, and one that matches none. -/
theorem wit_OpcodeMapByMatchAndMask :
    [decode 0x011000000000, decode 0x021000030005, decode 0x031000000000, decode 0x041000000000, decode 0x051100000000,
      decode 0x061000000000, decode 0x071000000000, decode 0x081100000000] =
    [.ok (.hclr 1), .ok (.pgen 1 3 5), .ok (.csum 1), .ok (.cchk 1), .ok (.hcmp 1 1), .ok (.hser 1), .ok (.hdes 1),
      .ok (.rpr 1 1)] ∧ decode 0x050000000001 = .error .unusedFieldNotZero := by decide

/-- One illegal word for each of the five clauses of R73, and a state that meets the step's hypotheses. -/
theorem wit_IllegalWords :
    [decode 0x000000000000, decode 0x090000000000, decode 0x060100000000, decode 0x050000010000, decode 0x012000000000,
      decode 0x080200000000] =
    [.error .badOpcode, .error .badOpcode, .error .unusedFieldNotZero, .error .unusedFieldNotZero, .error .badSlot,
      .error .badSlot] ∧
    (withMove (.command 0x090000000000) small).busy = false ∧
    (withMove (.command 0x090000000000) small).port = .command 0x090000000000 :: [] := by decide

theorem wit_StepRunsDecodedCommand :
    (withMove (.command 0x081100000000) small).busy = false ∧
    (withMove (.command 0x081100000000) small).port = .command 0x081100000000 :: [] ∧
    decode 0x081100000000 = .ok (.rpr 1 1) := by decide

theorem wit_FetchedWordRuns : decodeTableWord 48 0x081100000000 = some (.rpr 1 1) := by decide

theorem wit_NothingIssuedNothingChanges : State.reset.port = [] := rfl

/-- The last byte of each memory. -/
theorem wit_HostWritesOneByte :
    small.busy = false ∧ 63 < small.cfg.bufBytes ∧ (withMove (.writeBuf 63 1) small).port = .writeBuf 63 1 :: [] ∧
    35 < small.cfg.msgBytes ∧ (withMove (.writeMsg 35 1) small).port = .writeMsg 35 1 :: [] := by decide

theorem wit_HostReadsOneByte :
    small.busy = false ∧ 63 < small.cfg.bufBytes ∧ (withMove (.readBuf 63) small).port = .readBuf 63 :: [] ∧
    35 < small.cfg.msgBytes ∧ (withMove (.readMsg 35) small).port = .readMsg 35 :: [] := by decide

/-- The last element that is there and the first that is not, and a state for each read. -/
theorem wit_HostReadsSlots :
    stateS1.busy = false ∧ 2 < (stateS1.header .h1).rows.toNat ∧ (stateS1.header .h1).rows.toNat ≤ 3 ∧
    2 < (stateS1.header .h1).cols.toNat ∧ (stateS1.header .h1).cols.toNat ≤ 3 ∧
    [HostMove.readChecksum .h1, .readRows .h1, .readCols .h1, .readRp .h1 2, .readRp .h1 3, .readCp .h1 2,
      .readCp .h1 3].all (fun m => decide ((withMove m stateS1).port = m :: [])) = true := by decide

theorem wit_HostReadsResponse :
    small.busy = false ∧ (withMove .readStatus small).port = .readStatus :: [] ∧
    (withMove .readResult small).port = .readResult :: [] ∧ (withMove .readLoc small).port = .readLoc :: [] := by decide

/-- The first address outside each memory. -/
theorem wit_HostAccessOutsideNotAdmitted :
    small.busy = false ∧ small.cfg.bufBytes ≤ 64 ∧ (withMove (.writeBuf 64 1) small).port = .writeBuf 64 1 :: [] ∧
    small.cfg.msgBytes ≤ 36 ∧ (withMove (.readMsg 36) small).port = .readMsg 36 :: [] ∧ small.Inv := by decide

/-- Two blocks that differ only in the first byte that is not in BUF and the first that is not in MSG. -/
theorem wit_HostAccessOutsideNotAdmitted_commands :
    let s' : State := { stateS1 with buf := Memory.put stateS1.buf 64 0xAB, msg := Memory.put stateS1.msg 36 0xAB }
    stateS1.Inv ∧ (∀ a, a < stateS1.cfg.bufBytes → s'.bufByte a = stateS1.bufByte a) ∧
    (∀ a, a < stateS1.cfg.msgBytes → s'.msgByte a = stateS1.msgByte a) ∧ s'.buf ≠ stateS1.buf := by
  refine ⟨by decide, fun a ha => ?_, fun a ha => ?_, by decide⟩
  · exact (State.setBuf_bufByte stateS1 64 a 0xAB).trans (if_neg (by have : a < 64 := ha; omega))
  · exact (State.setMsg_msgByte stateS1 36 a 0xAB).trans (if_neg (by have : a < 36 := ha; omega))

theorem wit_NoMoveWhileBusy :
    (withMove .readStatus { small with busy := true }).busy = true ∧
    (withMove .readStatus { small with busy := true }).port = .readStatus :: [] ∧ HostMove.readStatus ≠ .reset := by decide

theorem wit_ResetEventResets :
    (withMove .reset stateS1).port = .reset :: [] ∧
    (withMove (.resetDuring 0x010000000000) stateS1).busy = false ∧
    (withMove (.resetDuring 0x010000000000) stateS1).port = .resetDuring 0x010000000000 :: [] := by decide

theorem wit_HclrClearsSlot : namesSlot 1 .h1 := rfl

/-- The smallest and the largest dimensions of `small`. -/
theorem wit_PgenDerivesHeader :
    namesSlot 1 .h1 ∧
    1 ≤ (1 : Half).toNat ∧ (1 : Half).toNat ≤ small.cfg.maxRows ∧ 1 ≤ (8 : Half).toNat ∧ (8 : Half).toNat ≤ small.cfg.maxCols :=
  ⟨rfl, by decide⟩

/-- The first dimension too large; the zero dimensions are plain. -/
theorem wit_PgenBadDimension :
    namesSlot 1 .h1 ∧
    small.cfg.maxRows < (9 : Half).toNat ∧ small.cfg.maxCols < (9 : Half).toNat ∧ (0 : Half) = 0 :=
  ⟨rfl, by decide⟩

theorem wit_ReadOnlyCommandResults : namesSlot 0 .h0 ∧ namesSlot 1 .h1 := wit_namesSlot

theorem wit_HcmpSameSlotEqual : namesSlot 0 .h0 := rfl

/-- A header that fills the slot capacity, in slot 0, and the empty placeholder, in slot 1. -/
def stateFull : State :=
  withSlots { checksum := 16, rows := 8, cols := 8, rp := List.replicate 8 0, cp := List.replicate 8 0 } Header.empty small

theorem wit_HserWritesMessage :
    namesSlot 0 .h0 ∧ namesSlot 1 .h1 ∧
    (stateFull.header .h0).wellShaped ∧ (stateFull.header .h0).fits stateFull.cfg ∧
    (stateFull.header .h1).wellShaped ∧ (stateFull.header .h1).fits stateFull.cfg := ⟨rfl, rfl, by decide⟩

/-- V50: the message `M0`. -/
theorem wit_HdesLoadsValidMessage :
    namesSlot 0 .h0 ∧
    hdrV11.wellShaped ∧ hdrV11.consistent ∧ hdrV11.fits small.cfg ∧
    ∀ p, p < 20 + hdrV11.rows.toNat + hdrV11.cols.toNat →
      (withMsg msgM0 small).msgByte p = (serialize small.cfg.wireEndian hdrV11).getD p 0 :=
  ⟨rfl, by decide⟩

/-- V54, V56, V71, V62, V64 and V50: a message for each outcome. -/
theorem wit_HdesFailureCodes :
    ([msgM0.set 11 0x10, (((msgM0.set 0 5).set 1 0).set 8 5).set 9 0, (msgM0.set 4 9).set 12 9, msgM0.set 20 0xB0,
      msgM0.set 23 0, msgM0].map fun m => after (exec (.hdes 0) (withMsg m small)) (·.status)) =
    [some 0x10, some 0x11, some 0x12, some 0x13, some 0x14, some 0] := by decide

/-- `M0` followed by different bytes, from the first address that is not read. -/
theorem wit_DeserializerReadsOnlyTheMessage :
    let m := fun p => msgM0.getD p 0
    let m' := fun p => msgM0.getD p 0xFF
    (∀ p, p < 20 + wireNat .little m 4 2 + wireNat .little m 6 2 → m' p = m p) ∧ m' 26 ≠ m 26 := by decide

theorem syndrome_S1 : oneBitSyndrome hdrS1 hdrV80 1 1 3 := by unfold oneBitSyndrome; decide

theorem wit_RprFlipsLocatedBit :
    namesSlot 0 .h0 ∧ namesSlot 1 .h1 ∧
    oneBitSyndrome (stateS1.header .h0) (stateS1.header .h1) 1 1 3 ∧ (stateS1.header .h0).fits stateS1.cfg :=
  ⟨rfl, rfl, syndrome_S1, by decide⟩

/-- V100, V96, V89, V87, V91, V92: an observed header for each outcome beside the trusted one of S1 or a bad one. -/
theorem wit_RprFailureCodes :
    ([({ hdrS1 with checksum := 7 }, hdrV80),
      (hdrS1, { checksum := 5, rows := 2, cols := 3, rp := [0, 0], cp := [0, 0, 0] }),
      (hdrS1, observed 30 [0, 0x18, 0] [0, 0, 0]), (hdrS1, observed 8 [0, 0, 0] [1, 0, 1]),
      (hdrS1, observed 40 [0x10, 0x10, 0x01] [0, 1, 0]), (hdrS1, observed 35 [0, 0x1C, 0] [0, 1, 0]),
      (hdrS1, hdrS1)].map fun p => (decide (p.1.wellShaped ∧ p.2.wellShaped ∧ p.1.fits small.cfg),
        after (exec (.rpr 0 1) (withSlots p.1 p.2 small)) (·.status))) =
    [(true, some 0x20), (true, some 0x21), (true, some 0x22), (true, some 0x23), (true, some 0x25), (true, some 0x26),
      (true, some 0)] := by decide

/-- V93: the one outcome no two derived headers give. -/
theorem wit_RprFailureCodes_noRow :
    after (exec (.rpr 0 1) (withSlots { checksum := 3, rows := 1, cols := 1, rp := [0], cp := [1] }
      { checksum := 2, rows := 1, cols := 1, rp := [0], cp := [0] } small)) (·.status) = some 0x24 := by decide

/-- The three kinds of status: a failing scan, a flip, and a dimension mismatch. -/
theorem wit_RprStatusTellsTheHeaders :
    namesSlot 0 .h0 ∧ namesSlot 1 .h1 ∧
    (∃ t, exec (.rpr 0 1) (withSlots hdrS1 (observed 30 [0, 0x18, 0] [0, 0, 0]) small) = .next t ∧ t.status = 0x22) ∧
    (∃ t, exec (.rpr 0 1) stateS1 = .next t ∧ t.status = 0x00 ∧ t.result = 1) ∧
    (∃ t, exec (.rpr 0 1) (withSlots hdrS1 Header.empty small) = .next t ∧ t.status = 0x21) :=
  ⟨rfl, rfl, ⟨_, rfl, by decide⟩, ⟨_, rfl, by decide⟩, ⟨_, rfl, by decide⟩⟩

/-- A consistent header in slot 0 and one that is not in slot 1. -/
theorem wit_RprSameSlot :
    let s := withSlots hdrS1 { hdrS1 with checksum := 7 } small
    namesSlot 0 .h0 ∧ namesSlot 1 .h1 ∧ (s.header .h0).wellShaped ∧ (s.header .h0).consistent ∧
    (s.header .h1).wellShaped ∧ ¬ (s.header .h1).consistent := ⟨rfl, rfl, by decide⟩

theorem wit_BadSlotFieldEndsIllegal : Instr.wellFormed (.hcmp 0 2) = false ∧ Instr.wellFormed (.hclr 2) = false := by decide

/-- A block of the smallest capacities with headers no run puts into it: the first message and the first address that
do not fit. -/
theorem wit_AccessOutsideSpaceStops :
    let tiny : Config := { maxRows := 1, maxCols := 1, wireEndian := .little }
    let s : State := { stateS1 with cfg := tiny }
    namesSlot 0 .h0 ∧ namesSlot 1 .h1 ∧
    s.cfg.msgBytes < 20 + (s.header .h0).rp.length + (s.header .h0).cp.length ∧
    oneBitSyndrome (s.header .h0) (s.header .h1) 1 1 3 ∧ s.cfg.bufBytes ≤ 1 * (s.header .h0).rows.toNat + 1 :=
  ⟨rfl, rfl, by decide, syndrome_S1, by decide⟩

theorem inv_S1 : stateS1.Inv := by decide

theorem wit_StepKeepsInv :
    (withMove (.command 0x080100000000) stateS1).Inv ∧
    ∃ t, step (withMove (.command 0x080100000000) stateS1) = .next t := ⟨by decide, _, rfl⟩

theorem wit_EveryWordCompletes :
    (withMove (.command 0x090000000000) stateS1).Inv ∧
    (withMove (.command 0x090000000000) stateS1).port = .command 0x090000000000 :: [] := by decide

theorem wit_FailureChangesNothing : ∃ t, exec (.pgen 0 0 3) stateS1 = .next t ∧ t.status ≠ 0x00 := ⟨_, rfl, by decide⟩

theorem wit_CommandsEndWithAStatusCode : ∃ t, exec (.csum 0) stateS1 = .next t := ⟨_, rfl⟩

theorem wit_OnlyAFlipChangesLoc : ∃ t, exec (.rpr 0 1) stateS1 = .next t ∧ t.loc ≠ stateS1.loc := ⟨_, rfl, by decide⟩

/-- A load by each of the three commands. -/
theorem wit_OnlyLoadsChangeASlot :
    (∃ t, exec (.hclr 1) stateS1 = .next t ∧ t.header .h1 ≠ stateS1.header .h1) ∧
    (∃ t, exec (.pgen 0 1 1) (withBuf [0xA5] stateS1) = .next t ∧ t.header .h0 ≠ stateS1.header .h0) ∧
    (∃ t, exec (.hdes 0) (withMsg msgM0 stateS1) = .next t ∧ t.header .h0 ≠ stateS1.header .h0) :=
  ⟨⟨_, rfl, by decide⟩, ⟨_, rfl, by decide⟩, ⟨_, rfl, by decide⟩⟩

/-- `HSER` over other bytes changes MSG, and the flip of S1 changes BUF. -/
theorem wit_WhoWritesTheMemories :
    (∃ t, exec (.hser 0) (withMsg [0xFF] stateS1) = .next t ∧ ¬ sameMsg (withMsg [0xFF] stateS1) t) ∧
    (∃ t, exec (.rpr 0 1) stateS1 = .next t ∧ ¬ sameBuf stateS1 t) :=
  ⟨⟨_, rfl, fun h => absurd (h 0) (by decide)⟩, ⟨_, rfl, fun h => absurd (h 4) (by decide)⟩⟩

theorem wit_ParametersAreFixed : ∃ t, step (withMove .reset small) = .next t := ⟨_, rfl⟩

theorem wit_ChecksumNeverBadInARun : stateS1.Inv ∧ namesSlot 0 .h0 ∧ namesSlot 1 .h1 := ⟨inv_S1, rfl, rfl⟩

theorem wit_ParityOfAByte : 0 < 8 ∧ 7 < 8 ∧ ones 0x81 % 2 = 0 ∧ ones 0x00 % 2 = 0 := by decide

/-- V11's buffer has the length the claims on `derive` ask for. -/
theorem wit_DeriveClosedForm : bufV11.length = (3 : Half).toNat * (3 : Half).toNat ∧ 2 < (3 : Half).toNat := by decide

theorem wit_DerivedHeaderIsGood : (1 : Byte) ∈ (derive bufV11 3 3).cp := by decide

theorem wit_DeriveIsLinear :
    bufV11.length = (3 : Half).toNat * (3 : Half).toNat ∧
    (xorBytes bufV11 bufV11).length = (3 : Half).toNat * (3 : Half).toNat := by decide

/-- The last byte and both ends of the bit numbering. -/
theorem wit_OneFlippedBitInDerive :
    bufV11.length = (3 : Half).toNat * (3 : Half).toNat ∧ 2 < (3 : Half).toNat ∧ 0 < 8 ∧ 7 < 8 := by decide

/-- V81: for the least significant bit the two headers may have the same checksum (log entry 16). -/
theorem test_flip_of_bit_7_can_keep_the_checksum :
    (derive (bufV11.set 8 0x0E) 3 3).checksum = (derive bufV11 3 3).checksum ∧
    derive (bufV11.set 8 0x0E) 3 3 = observed 511 [0xB4, 0x5E, 0xE4] [1, 1, 1] := by decide

/-- R110 (b)'s last words fail of EVERY function, not of `derive` alone: one that answers V11's header, changes the row and
the column element as the rest of (b) says and has the checksum of R103's formula keeps the checksum 511 (log entry 16). -/
theorem no_function_changes_the_checksum_of_V81 (d : List Byte → Header) (hV11 : d bufV11 = hdrV11)
    (hsum : ∀ b, (d b).checksum = calcChecksum (d b))
    (hrows : (d (bufV11.set 8 0x0E)).rows = 3) (hcols : (d (bufV11.set 8 0x0E)).cols = 3)
    (hrp : (d (bufV11.set 8 0x0E)).rp = hdrV11.rp.set 2 (0xE5 ^^^ 0x01))
    (hcp : (d (bufV11.set 8 0x0E)).cp = hdrV11.cp.set 2 (0x00 ^^^ 0x01)) :
    (d (bufV11.set 8 0x0E)).checksum = (d bufV11).checksum := by
  rw [hsum, calcChecksum, hrows, hcols, hrp, hcp, hV11]; decide

theorem wit_no_function_changes_the_checksum_of_V81 :
    derive bufV11 3 3 = hdrV11 ∧
    (derive (bufV11.set 8 0x0E) 3 3).rp = hdrV11.rp.set 2 (0xE5 ^^^ 0x01) ∧
    (derive (bufV11.set 8 0x0E) 3 3).cp = hdrV11.cp.set 2 (0x00 ^^^ 0x01) := by decide

theorem wit_TotalParityOfDerive : bufV11.length = (3 : Half).toNat * (3 : Half).toNat := by decide

theorem wit_ChecksumNeverWraps :
    hdrV11.wellShaped ∧ Header.empty.wellShaped ∧ bufV11.length ≤ 65535 ∧
    bufV11.length = (3 : Half).toNat * (3 : Half).toNat := by decide

theorem wit_EqualityOfHeaders :
    hdrEq hdrV11 hdrV11 = true ∧ hdrV11.wellShaped ∧ hdrV11.consistent ∧ hdrV11.rows = hdrV11.rows := by decide

theorem wit_ByteOrderOfIntegers :
    enc16 .big 0x0300 = [0x03, 0x00] ∧ enc16 .little 0x0300 = [0x00, 0x03] ∧
    enc32 .big 0x01020304 = [1, 2, 3, 4] ∧ enc32 .little 0x01020304 = [4, 3, 2, 1] := by decide

theorem wit_WireFormatLayout : hdrV11.wellShaped ∧ (serialize .little hdrV11).getD 25 9 = 0 := by decide

/-- The hypotheses of the four parts of the round trip. -/
theorem wit_HeaderRoundTrip :
    derive bufV11 3 3 = hdrV11 ∧ 1 ≤ (3 : Half).toNat ∧ (3 : Half).toNat ≤ small.cfg.maxRows ∧
    memRead (withMsg msgM0 small).msgByte 0 26 = serialize .little hdrV11 ∧
    (hdrV11.wellShaped ∧ hdrV11.consistent ∧ hdrV11.fits small.cfg) ∧
    deserializeCheck small.cfg (withMsg msgM0 small).msgByte = .ok hdrV11 ∧ stateS1.Inv := by decide

/-- A flip in each region of `M0`, at the first and at the last byte of it, with the code it gives (S6). -/
theorem wit_SingleBitCorruptionDetected :
    (([0, 15, 16, 19, 20, 22, 23, 25] : List Nat).map fun p =>
      let s := withMsg (msgM0.set p (msgM0.getD p 0 ^^^ 0x80)) small
      ((List.range 26).all fun q => s.msgByte q ==
        if q = p then (serialize s.cfg.wireEndian hdrV11).getD q 0 ^^^ (0x80#8 >>> 0)
        else (serialize s.cfg.wireEndian hdrV11).getD q 0, after (exec (.hdes 1) s) (·.status))) =
    [(true, some 0x10), (true, some 0x10), (true, some 0x13), (true, some 0x13), (true, some 0x13), (true, some 0x13),
      (true, some 0x14), (true, some 0x14)] := by decide

/-- R160 (e): bit 0 of rp[0] up and bit 0 of rp[2] down, two flips in `M0` that leave its sums as they are; the message
is accepted as the other header. -/
theorem wit_SingleBitCorruptionDetected_twoBits :
    let other : Header := { hdrV11 with rp := [0xB5, 0x5E, 0xE4] }
    hdrV11.wellShaped ∧ hdrV11.consistent ∧ other.wellShaped ∧ other.rows = hdrV11.rows ∧ other.cols = hdrV11.cols ∧
    other ≠ hdrV11 ∧ ((xorBytes (serialize .little hdrV11) (serialize .little other)).map ones).sum = 2 ∧
    serialize .little other = (msgM0.set 20 0xB5).set 22 0xE4 ∧
    deserializeCheck Config.standard (withMsg ((msgM0.set 20 0xB5).set 22 0xE4) small).msgByte = .ok other := by decide

/-- V83 and V86: the smallest buffer, and the last byte of a larger one. -/
theorem wit_SingleBitRepaired :
    [(0xA5 : Byte)].length = (1 : Half).toNat * (1 : Half).toNat ∧ 0 < (1 : Half).toNat ∧
    (List.replicate 10 (0 : Byte)).length = (2 : Half).toNat * (5 : Half).toNat ∧ 4 < (5 : Half).toNat ∧
    1 < (2 : Half).toNat ∧ 7 < 8 := by decide

theorem wit_SingleBitRepairedByCommands :
    namesSlot 0 .h0 ∧ namesSlot 1 .h1 ∧
    Slot.h0 ≠ .h1 ∧ (8 : Half).toNat ≤ small.cfg.maxRows ∧ (8 : Half).toNat ≤ small.cfg.maxCols ∧ 7 < (8 : Half).toNat ∧
    7 < 8 :=
  ⟨rfl, rfl, by decide⟩

theorem wit_FlipIsRowDifference : locate hdrS1 hdrV80 = .flip 1 1 3 ∧ 3 < 8 := by decide

theorem wit_FlipAddressInsideBuffer :
    small.cfg.inRange ∧ hdrS1.wellShaped ∧ hdrS1.fits small.cfg ∧ locate hdrS1 hdrV80 = .flip 1 1 3 := by decide

theorem wit_StaleRepairUndoesIt :
    ∃ t, exec (.rpr 0 1) stateS1 = .next t ∧ t.status = 0x00 ∧ t.result = 1 := ⟨_, rfl, by decide⟩

theorem wit_DerivedHeadersNeverNoRow :
    bufV11.length = (3 : Half).toNat * (3 : Half).toNat ∧ locate (derive bufV11 3 3) (derive (bufV11.set 8 0x0E) 3 3) = .flip 2 2 7 := by
  decide

end Sys2Proof.Tests
end

section
/-! PROOF. The host's reads of the header slots (10_state.md R33). -/

open Sys2Proof Sys2Proof.Machine

namespace Sys2Proof.Proofs

/-- The host's pending moves are no part of a header slot. -/
@[simp] theorem header_withPort (s : State) (rest : List HostMove) (g : Slot) :
    ({ s with port := rest } : State).header g = s.header g := by cases g <;> rfl

/-- An idle block admits a move: it answers what the move's body answers (70_reset_and_hazards.md R240). -/
theorem whenIdle_of_idle {s : State} (hidle : s.busy = false) (o : Host.Outcome State Fault Refusal) :
    whenIdle s o = o := by simp [whenIdle, hidle]

/-! ### The slot moves of an idle block -/

section
variable {s : State} (hidle : s.busy = false) (g : Slot)
include hidle

theorem hostMove_readChecksum :
    hostMove (.readChecksum g) s = .next (s.reply (.word (s.header g).checksum)) := whenIdle_of_idle hidle _

theorem hostMove_readRows : hostMove (.readRows g) s = .next (s.reply (.half (s.header g).rows)) :=
  whenIdle_of_idle hidle _

theorem hostMove_readCols : hostMove (.readCols g) s = .next (s.reply (.half (s.header g).cols)) :=
  whenIdle_of_idle hidle _

theorem hostMove_readRp (i : Nat) : hostMove (.readRp g i) s = readRpElement (s.header g) i s :=
  whenIdle_of_idle hidle _

theorem hostMove_readCp (j : Nat) : hostMove (.readCp g j) s = readCpElement (s.header g) j s :=
  whenIdle_of_idle hidle _

end

/-! ### The two sides of each index bound -/

theorem readRpElement_of_lt {h : Header} {i : Nat} (hi : i < h.rows.toNat) (s : State) :
    readRpElement h i s = .next (s.reply (.byte (h.rp.getD i 0))) := if_pos hi

theorem readRpElement_of_le {h : Header} {i : Nat} (hi : h.rows.toNat ≤ i) (s : State) :
    readRpElement h i s = .refused (.hostRpIndex i) := if_neg (Nat.not_lt.mpr hi)

theorem readCpElement_of_lt {h : Header} {j : Nat} (hj : j < h.cols.toNat) (s : State) :
    readCpElement h j s = .next (s.reply (.byte (h.cp.getD j 0))) := if_pos hj

theorem readCpElement_of_le {h : Header} {j : Nat} (hj : h.cols.toNat ≤ j) (s : State) :
    readCpElement h j s = .refused (.hostCpIndex j) := if_neg (Nat.not_lt.mpr hj)

/-! ### The obligation -/

/-- Settles O12: each read is its move's equation on the idle block without the move taken from the port; an element
read then splits on its index bound. -/
theorem hostReadsSlots : Obligations.HostReadsSlots := by
  intro s g i rest hidle
  have hidle : ({ s with port := rest } : State).busy = false := hidle
  refine ⟨fun hport => ?checksum, fun hport => ?rows, fun hport => ?cols, fun hport => ?rp, fun hport => ?cp⟩ <;>
    rw [step_move s _ rest hport]
  case checksum => rw [hostMove_readChecksum hidle, header_withPort, State.reply]
  case rows => rw [hostMove_readRows hidle, header_withPort, State.reply]
  case cols => rw [hostMove_readCols hidle, header_withPort, State.reply]
  case rp =>
    rw [hostMove_readRp hidle, header_withPort]
    exact ⟨fun hi => readRpElement_of_lt hi _, fun hi => readRpElement_of_le hi _⟩
  case cp =>
    rw [hostMove_readCp hidle, header_withPort]
    exact ⟨fun hj => readCpElement_of_lt hj _, fun hj => readCpElement_of_le hj _⟩

end Sys2Proof.Proofs
end

section
/-! PROOF. The host's accesses to BUF and MSG (20_memory.md R48 to R51, R57). -/

open Sys2Proof Sys2Proof.Machine Sys2Proof.Claims

namespace Sys2Proof.Proofs

/-! ### The memory moves of an idle block -/

section
variable {s : State} (hidle : s.busy = false) (a : Nat)
include hidle

theorem hostMove_writeBuf (v : Byte) : hostMove (.writeBuf a v) s = onBuf a s (s.setBuf a v) :=
  whenIdle_of_idle hidle _

theorem hostMove_readBuf : hostMove (.readBuf a) s = onBuf a s (s.reply (.byte (s.bufByte a))) :=
  whenIdle_of_idle hidle _

theorem hostMove_writeMsg (v : Byte) : hostMove (.writeMsg a v) s = onMsg a s (s.setMsg a v) :=
  whenIdle_of_idle hidle _

theorem hostMove_readMsg : hostMove (.readMsg a) s = onMsg a s (s.reply (.byte (s.msgByte a))) :=
  whenIdle_of_idle hidle _

end

/-! ### The two sides of each address bound -/

theorem onBuf_of_lt {s : State} {a : Nat} (ha : a < s.cfg.bufBytes) (t : State) : onBuf a s t = .next t := if_pos ha

theorem onBuf_of_le {s : State} {a : Nat} (ha : s.cfg.bufBytes ≤ a) (t : State) :
    onBuf a s t = .refused (.hostBufAddress a) := if_neg (Nat.not_lt.mpr ha)

theorem onMsg_of_lt {s : State} {a : Nat} (ha : a < s.cfg.msgBytes) (t : State) : onMsg a s t = .next t := if_pos ha

theorem onMsg_of_le {s : State} {a : Nat} (ha : s.cfg.msgBytes ≤ a) (t : State) :
    onMsg a s t = .refused (.hostMsgAddress a) := if_neg (Nat.not_lt.mpr ha)

/-! ### The obligations about one byte -/

/-- Settles O10: the move is `setBuf` or `setMsg` on the state without the move, and a write is read back at its
address only. -/
theorem hostWritesOneByte : Obligations.HostWritesOneByte := by
  intro s a v rest hidle
  have hidle : ({ s with port := rest } : State).busy = false := hidle
  refine ⟨fun ha hport => ⟨({ s with port := rest } : State).setBuf a v, ?bufStep, ?bufSame, fun b hb => ?bufOther,
      fun _ => rfl, rfl⟩,
    fun ha hport => ⟨({ s with port := rest } : State).setMsg a v, ?msgStep, ?msgSame, fun b hb => ?msgOther,
      fun _ => rfl, rfl⟩⟩
  case bufStep => rw [step_move s _ rest hport, hostMove_writeBuf hidle]; exact onBuf_of_lt ha _
  case bufSame => rw [State.setBuf_bufByte, if_pos rfl]
  case bufOther => rw [State.setBuf_bufByte, if_neg hb]; rfl
  case msgStep => rw [step_move s _ rest hport, hostMove_writeMsg hidle]; exact onMsg_of_lt ha _
  case msgSame => rw [State.setMsg_msgByte, if_pos rfl]
  case msgOther => rw [State.setMsg_msgByte, if_neg hb]; rfl

/-- Settles O11: the move is a `reply` with the byte on the state without the move. -/
theorem hostReadsOneByte : Obligations.HostReadsOneByte := by
  intro s a rest hidle
  have hidle : ({ s with port := rest } : State).busy = false := hidle
  constructor <;> intro ha hport <;> rw [step_move s _ rest hport]
  · rw [hostMove_readBuf hidle]; exact onBuf_of_lt ha _
  · rw [hostMove_readMsg hidle]; exact onMsg_of_lt ha _

/-- R57's first half: outside its memory a host access is refused, read or write. -/
theorem hostAccess_refused (s : State) (a : Nat) (v : Byte) (rest : List HostMove) (hidle : s.busy = false) :
    (s.cfg.bufBytes ≤ a → s.port = .writeBuf a v :: rest ∨ s.port = .readBuf a :: rest →
      step s = .refused (.hostBufAddress a)) ∧
    (s.cfg.msgBytes ≤ a → s.port = .writeMsg a v :: rest ∨ s.port = .readMsg a :: rest →
      step s = .refused (.hostMsgAddress a)) := by
  have hidle : ({ s with port := rest } : State).busy = false := hidle
  constructor <;> rintro ha (hport | hport) <;> rw [step_move s _ rest hport]
  · rw [hostMove_writeBuf hidle]; exact onBuf_of_le ha _
  · rw [hostMove_readBuf hidle]; exact onBuf_of_le ha _
  · rw [hostMove_writeMsg hidle]; exact onMsg_of_le ha _
  · rw [hostMove_readMsg hidle]; exact onMsg_of_le ha _

end Sys2Proof.Proofs
end

section
/-! PROOF. Commands and the bytes outside BUF and MSG (20_memory.md R47, R57): with good slots no command faults, no
command writes an outside byte, and none depends on one. -/

open Sys2Proof Sys2Proof.Machine Sys2Proof.Claims

namespace Sys2Proof.Proofs

/-! ### No fault with good slots -/

/-- `bit_row / 8` is the row again, so the located byte is element `row` of column `col` (44_repair.md R177, R178). -/
theorem flipAddr_eq (rows : Half) (col row : Nat) {k : Nat} (hk : k < 8) :
    flipAddr rows col row k = col * rows.toNat + row := by
  rw [flipAddr, bitRow]; omega

/-- The buffer of dimensions within capacity lies inside BUF (00_scope.md R5). -/
theorem dims_le_bufBytes {cfg : Config} {rows cols : Half} (hrows : rows.toNat ≤ cfg.maxRows)
    (hcols : cols.toNat ≤ cfg.maxCols) : rows.toNat * cols.toNat ≤ cfg.bufBytes := Nat.mul_le_mul hrows hcols

/-- The byte located with a good trusted header lies inside BUF (44_repair.md R184). -/
theorem flipAddr_lt_bufBytes {cfg : Config} {t o : Header} {col row k : Nat} (ht : t.good cfg)
    (hl : locate t o = .flip col row k) : flipAddr t.rows col row k < cfg.bufBytes := by
  obtain ⟨⟨hrp, hcp⟩, -, hrows, hcols⟩ := ht
  obtain ⟨hcol, hrow⟩ := locate_flip_lt t o col row k hl
  obtain ⟨-, -, -, -, -, -, hk, -⟩ := locate_flip t o col row k hl
  rw [flipAddr_eq _ _ _ hk]
  exact (position_lt t.rows.toNat t.cols.toNat col row (hcp ▸ hcol) (hrp ▸ hrow)).trans_le
    (dims_le_bufBytes hrows hcols)

/-- The message of a good header fits into MSG (20_memory.md R47). -/
theorem length_serialize_le_msgBytes {cfg : Config} {h : Header} (hg : h.good cfg) (e : Endian) :
    (serialize e h).length ≤ cfg.msgBytes := by
  obtain ⟨⟨hrp, hcp⟩, -, hrows, hcols⟩ := hg
  rw [length_serialize, Config.msgBytes]; omega

/-- The slots of a state that meets the invariant are good. -/
theorem header_good_of_inv {s : State} (hs : s.Inv) (g : Slot) : (s.header g).good s.cfg := by
  obtain ⟨-, h0, h1, -⟩ := hs
  exact s.forall_header (p := fun h => h.good s.cfg) h0 h1 g

/-- `HSER` of a good header ends in a next state. -/
theorem sendHeader_next {s : State} {h : Header} (hg : h.good s.cfg) : ∃ t, sendHeader h s = .next t :=
  ⟨_, if_pos (length_serialize_le_msgBytes hg _)⟩

/-- `RPR` with a good trusted header ends in a next state. -/
theorem repairBuf_next {s : State} {t o : Header} (ht : t.good s.cfg) : ∃ u, repairBuf t o s = .next u := by
  rw [repairBuf]
  cases hl : locate t o with
  | fail c => exact ⟨_, rfl⟩
  | noop => exact ⟨_, rfl⟩
  | flip col row k => exact ⟨_, if_pos (flipAddr_lt_bufBytes ht hl)⟩

/-- An operand form answers a next state when its body does on every slot. -/
theorem onSlot_next {ha : SlotField} {s : State} {body : Slot → Host.Outcome State Fault Refusal}
    (hbody : ∀ a, ∃ t, body a = .next t) : ∃ t, onSlot ha s body = .next t := by
  rcases onSlot_cases ha s body with ⟨a, -, e⟩ | ⟨-, e⟩ <;> rw [e]
  · exact hbody a
  · exact ⟨_, rfl⟩

/-- With good slots every command ends in a next state: only `HSER` and `RPR` have a path that faults, and with
good slots they do not take it. -/
theorem exec_next {s : State} (hg : ∀ g, (s.header g).good s.cfg) (i : Instr) : ∃ t, exec i s = .next t := by
  cases i with
  | hclr ha => exact onSlot_next fun _ => ⟨_, rfl⟩
  | pgen ha rows cols => exact onSlot_next fun _ => ⟨_, rfl⟩
  | csum ha => exact onSlot_next fun _ => ⟨_, rfl⟩
  | cchk ha => exact onSlot_next fun _ => ⟨_, rfl⟩
  | hcmp ha hb => exact onSlot_next fun _ => onSlot_next fun _ => ⟨_, rfl⟩
  | hser ha => exact onSlot_next fun a => sendHeader_next (hg a)
  | hdes ha => exact onSlot_next fun _ => ⟨_, rfl⟩
  | rpr ha hb => exact onSlot_next fun a => onSlot_next fun _ => repairBuf_next (hg a)

/-- A move faults only when its body does. -/
theorem whenIdle_fault {s : State} {o : Host.Outcome State Fault Refusal} {r : Fault} (h : whenIdle s o = .fault r) :
    o = .fault r := by
  unfold whenIdle at h
  split_ifs at h
  exact h

/-- Of the host's moves only a legal command word can end in a fault, and then its command does. -/
theorem hostMove_fault {m : HostMove} {s : State} {r : Fault} (h : hostMove m s = .fault r) :
    ∃ w i, m = .command w ∧ decode w = .ok i ∧ exec i s.accept = .fault r := by
  have refuses : ∀ {p : Prop} [Decidable p] {t : State} {f : Refusal},
      (if p then Host.Outcome.next t else .refused f) ≠ Host.Outcome.fault r := by
    intro p _ t f; split_ifs <;> nofun
  cases m with
  | command w =>
    have h := whenIdle_fault h
    unfold runCommand at h
    cases hd : decode w with
    | ok i => rw [hd] at h; exact ⟨w, i, rfl, hd, h⟩
    | error e => rw [hd] at h; nomatch h
  | writeBuf a v => exact absurd (whenIdle_fault h) refuses
  | readBuf a => exact absurd (whenIdle_fault h) refuses
  | writeMsg a v => exact absurd (whenIdle_fault h) refuses
  | readMsg a => exact absurd (whenIdle_fault h) refuses
  | readRp g i => exact absurd (whenIdle_fault h) refuses
  | readCp g j => exact absurd (whenIdle_fault h) refuses
  | readStatus => nomatch whenIdle_fault h
  | readResult => nomatch whenIdle_fault h
  | readLoc => nomatch whenIdle_fault h
  | readChecksum g => nomatch whenIdle_fault h
  | readRows g => nomatch whenIdle_fault h
  | readCols g => nomatch whenIdle_fault h
  | reset => nomatch h
  | resetDuring w => nomatch whenIdle_fault h

/-- From the invariant no step faults. -/
theorem step_not_faults {s : State} (hs : s.Inv) : ¬ faults (step s) := by
  rintro ⟨r, hr⟩
  cases hport : s.port with
  | nil => rw [step_idle s hport] at hr; nomatch hr
  | cons m rest =>
    rw [step_move s m rest hport] at hr
    obtain ⟨w, i, -, -, he⟩ := hostMove_fault hr
    have hg : ∀ g, (({ s with port := rest } : State).accept.header g).good s.cfg := fun g => by
      rw [State.accept_header, header_withPort]; exact header_good_of_inv hs g
    obtain ⟨t, ht⟩ := exec_next hg i
    rw [ht] at he; nomatch he

/-! ### No command writes a byte outside -/

/-- Every byte outside BUF and outside MSG is as before. -/
structure KeepsOutside (s t : State) : Prop where
  buf : ∀ a, s.cfg.bufBytes ≤ a → t.bufByte a = s.bufByte a
  msg : ∀ a, s.cfg.msgBytes ≤ a → t.msgByte a = s.msgByte a

/-- A next state of a command has the parameters it had (00_scope.md R5). -/
theorem effect_cfg {i : Instr} {s t : State} (h : Effect i s t) : t.cfg = s.cfg := by
  rcases h with ⟨c, -, rfl⟩ | ⟨v, -, -, rfl⟩ | ⟨ha, a, h, v, -, -, rfl⟩ | ⟨ha, a, -, -, -, rfl⟩ |
    ⟨ha, hb, a, b, col, row, k, -, -, -, -, -, rfl⟩ <;> simp

/-- A next state of a command keeps every byte outside: the two forms that write a memory write inside it. -/
theorem effect_keepsOutside {i : Instr} {s t : State} (h : Effect i s t) : KeepsOutside s t := by
  rcases h with ⟨c, -, rfl⟩ | ⟨v, -, -, rfl⟩ | ⟨ha, a, h, v, -, -, rfl⟩ | ⟨ha, a, -, -, hm, rfl⟩ |
    ⟨ha, hb, a, b, col, row, k, -, -, -, -, hm, rfl⟩
  case failed => exact ⟨by simp, by simp⟩
  case answered => exact ⟨by simp, by simp⟩
  case loaded => exact ⟨by simp, by simp⟩
  case serialized =>
    refine ⟨by simp, fun p hp => ?_⟩
    rw [State.done_msgByte, State.writeMsg_msgByte, if_neg (by omega)]
  case flipped =>
    refine ⟨fun p hp => ?_, by simp⟩
    rw [flip_bufByte, if_neg (by omega)]

/-! ### No command depends on a byte outside -/

/-- Two states a command cannot tell apart: the same parameters, slots, STATUS, RESULT and LOC, and the same bytes
inside BUF and MSG. -/
structure AgreeInside (s s' : State) : Prop where
  cfg : s'.cfg = s.cfg
  header : ∀ g, s'.header g = s.header g
  status : s'.status = s.status
  result : s'.result = s.result
  loc : s'.loc = s.loc
  buf : ∀ a, a < s.cfg.bufBytes → s'.bufByte a = s.bufByte a
  msg : ∀ a, a < s.cfg.msgBytes → s'.msgByte a = s.msgByte a

/-- Two outcomes of a command that a host cannot tell apart: agreeing next states, or the same fault. -/
inductive OutcomesAgree : Host.Outcome State Fault Refusal → Host.Outcome State Fault Refusal → Prop where
  | next {t t' : State} (h : AgreeInside t t') : OutcomesAgree (.next t) (.next t')
  | fault (r : Fault) : OutcomesAgree (.fault r) (.fault r)

/-- The outcome that agrees with a next state is a next state. -/
theorem OutcomesAgree.of_next {t : State} {o : Host.Outcome State Fault Refusal} (h : OutcomesAgree (.next t) o) :
    ∃ t', o = .next t' ∧ AgreeInside t t' := by
  cases h with
  | next h => exact ⟨_, rfl, h⟩

namespace AgreeInside

variable {s s' : State}

/-- States that differ only in the two memories agree when the bytes inside do. -/
theorem of_memories {buf msg : Memory}
    (hbuf : ∀ a, a < s.cfg.bufBytes → ({ s with buf := buf, msg := msg } : State).bufByte a = s.bufByte a)
    (hmsg : ∀ a, a < s.cfg.msgBytes → ({ s with buf := buf, msg := msg } : State).msgByte a = s.msgByte a) :
    AgreeInside s { s with buf := buf, msg := msg } :=
  ⟨rfl, fun g => by cases g <;> rfl, rfl, rfl, rfl, hbuf, hmsg⟩

/-! #### The operations on the state keep the agreement -/

theorem finish (h : AgreeInside s s') (c : Code) (v : Word) : AgreeInside (s.finish c v) (s'.finish c v) :=
  { h with header := by simp [h.header], status := rfl, result := rfl }

theorem done (h : AgreeInside s s') (v : Word) : AgreeInside (s.done v) (s'.done v) := h.finish .ok v

theorem raise (h : AgreeInside s s') (c : Code) : AgreeInside (s.raise c) (s'.raise c) := h.finish c 0

theorem setHeader (h : AgreeInside s s') (g : Slot) (v : Header) :
    AgreeInside (s.setHeader g v) (s'.setHeader g v) where
  cfg := by simp [h.cfg]
  header f := by
    by_cases hf : f = g
    · subst hf; simp
    · rw [State.setHeader_header_other _ _ _ _ hf, State.setHeader_header_other _ _ _ _ hf, h.header]
  status := by simp [h.status]
  result := by simp [h.result]
  loc := by simp [h.loc]
  buf := by simpa using h.buf
  msg := by simpa using h.msg

theorem setLoc (h : AgreeInside s s') (v : LocWord) : AgreeInside (s.setLoc v) (s'.setLoc v) :=
  { h with header := by simp [h.header], loc := rfl }

theorem setBuf (h : AgreeInside s s') (a : Nat) (v : Byte) : AgreeInside (s.setBuf a v) (s'.setBuf a v) :=
  { h with
    header := by simp [h.header]
    buf := fun b hb => by rw [State.setBuf_bufByte, State.setBuf_bufByte, h.buf b hb] }

theorem writeMsg (h : AgreeInside s s') (a : Nat) (bytes : List Byte) :
    AgreeInside (s.writeMsg a bytes) (s'.writeMsg a bytes) :=
  { h with
    header := by simp [h.header]
    msg := fun b hb => by rw [State.writeMsg_msgByte, State.writeMsg_msgByte, h.msg b hb] }

end AgreeInside

/-- The deserializer depends on the 20 bytes before the sequences, and on the sequences only when the dimensions fit
(43_deserializer.md R150). -/
theorem deserializeCheck_congr {cfg : Config} {m m' : Nat → Byte} (hfixed : ∀ p, p < 20 → m' p = m p)
    (hseqs : (dec16 cfg.wireEndian (m 4) (m 5)).toNat ≤ cfg.maxRows →
      (dec16 cfg.wireEndian (m 6) (m 7)).toNat ≤ cfg.maxCols →
      ∀ p, p < 20 + (dec16 cfg.wireEndian (m 4) (m 5)).toNat + (dec16 cfg.wireEndian (m 6) (m 7)).toNat →
        m' p = m p) :
    deserializeCheck cfg m' = deserializeCheck cfg m := by
  have hA : memRead m' 0 8 = memRead m 0 8 := memRead_congr _ _ _ _ fun i hi => hfixed _ (by omega)
  have hB : memRead m' 8 8 = memRead m 8 8 := memRead_congr _ _ _ _ fun i hi => hfixed _ (by omega)
  simp only [deserializeCheck, hA, hB, hfixed, Nat.reduceLT]
  by_cases hcap : cfg.maxRows < (dec16 cfg.wireEndian (m 4) (m 5)).toNat ∨
      cfg.maxCols < (dec16 cfg.wireEndian (m 6) (m 7)).toNat
  · simp only [if_pos hcap]
  · obtain ⟨hrows, hcols⟩ := not_or.mp hcap
    have hseqs := hseqs (Nat.not_lt.mp hrows) (Nat.not_lt.mp hcols)
    rw [memRead_congr m' m 20 _ fun i hi => hseqs _ (by omega),
      memRead_congr m' m (20 + _) _ fun i hi => hseqs _ (by omega)]

/-! #### Each command on agreeing states -/

section
variable {s s' : State} (h : AgreeInside s s')
include h

/-- The deserializer reads only bytes inside MSG. -/
theorem deserializeCheck_agree : deserializeCheck s'.cfg s'.msgByte = deserializeCheck s.cfg s.msgByte := by
  rw [h.cfg]
  refine deserializeCheck_congr (fun p hp => h.msg p ?_) fun hrows hcols p hp => h.msg p ?_ <;>
    rw [Config.msgBytes] <;> omega

/-- A buffer of dimensions within capacity is read inside BUF. -/
theorem buffer_agree {rows cols : Half} (hdims : badDims s.cfg rows cols = false) :
    s'.buffer rows cols = s.buffer rows cols := by
  simp only [badDims, Bool.or_eq_false_iff, decide_eq_false_iff_not, Nat.not_lt] at hdims
  obtain ⟨⟨-, hrows⟩, hcols⟩ := hdims
  exact memRead_congr _ _ _ _ fun i hi => h.buf _ (by have := dims_le_bufBytes hrows hcols; omega)

theorem generate_agree (a : Slot) (rows cols : Half) :
    AgreeInside (generate a rows cols s) (generate a rows cols s') := by
  rw [generate, generate, h.cfg]
  cases hdims : badDims s.cfg rows cols with
  | true => exact h.raise _
  | false => rw [buffer_agree h hdims]; exact (h.setHeader _ _).done _

theorem deserializeInto_agree (a : Slot) : AgreeInside (deserializeInto a s) (deserializeInto a s') := by
  rw [deserializeInto, deserializeInto, deserializeCheck_agree h]
  cases deserializeCheck s.cfg s.msgByte with
  | error c => exact h.raise _
  | ok v => exact (h.setHeader _ _).done _

theorem sendHeader_agree (a : Slot) : OutcomesAgree (sendHeader (s.header a) s) (sendHeader (s'.header a) s') := by
  simp only [sendHeader, h.cfg, h.header]
  split_ifs
  · exact .next ((h.writeMsg _ _).done _)
  · exact .fault _

/-- The byte a flip rewrites is read inside BUF. -/
theorem flipBit_agree (t : Header) (col row k : Nat) : OutcomesAgree (flipBit t col row k s) (flipBit t col row k s') := by
  simp only [flipBit, h.cfg]
  split_ifs with ha
  · rw [h.buf _ ha]; exact .next (((h.setBuf _ _).setLoc _).done _)
  · exact .fault _

theorem repairBuf_agree (a b : Slot) :
    OutcomesAgree (repairBuf (s.header a) (s.header b) s) (repairBuf (s'.header a) (s'.header b) s') := by
  rw [repairBuf, repairBuf, h.header, h.header]
  cases locate (s.header a) (s.header b) with
  | fail c => exact .next (h.raise _)
  | noop => exact .next (h.done _)
  | flip col row k => exact flipBit_agree h _ col row k

/-- An operand form agrees when its body agrees on every slot. -/
theorem onSlot_agree {ha : SlotField} {body body' : Slot → Host.Outcome State Fault Refusal}
    (hbody : ∀ a, OutcomesAgree (body a) (body' a)) : OutcomesAgree (onSlot ha s body) (onSlot ha s' body') := by
  cases hs : slotOf ha with
  | some a => rw [onSlot_some _ a _ _ hs, onSlot_some _ a _ _ hs]; exact hbody a
  | none => rw [onSlot_none _ _ _ hs, onSlot_none _ _ _ hs]; exact .next (h.raise _)

/-- No command tells apart two states that agree inside BUF and MSG. -/
theorem exec_agree (i : Instr) : OutcomesAgree (exec i s) (exec i s') := by
  cases i with
  | hclr ha => exact onSlot_agree h fun a => .next ((h.setHeader a _).done _)
  | pgen ha rows cols => exact onSlot_agree h fun a => .next (generate_agree h a rows cols)
  | csum ha => exact onSlot_agree h fun a => .next (h.header a ▸ h.done _)
  | cchk ha => exact onSlot_agree h fun a => .next (h.header a ▸ h.done _)
  | hcmp ha hb => exact onSlot_agree h fun a => onSlot_agree h fun b => .next (h.header a ▸ h.header b ▸ h.done _)
  | hser ha => exact onSlot_agree h fun a => sendHeader_agree h a
  | hdes ha => exact onSlot_agree h fun a => .next (deserializeInto_agree h a)
  | rpr ha hb => exact onSlot_agree h fun a => onSlot_agree h fun b => repairBuf_agree h a b

end

/-! ### The obligation -/

/-- Settles O14: the host's access is refused by its bound; with good slots a command ends in a next state, on the
changed memories in one that agrees with it inside, and both next states keep what is outside. -/
theorem hostAccessOutsideNotAdmitted : Obligations.HostAccessOutsideNotAdmitted := by
  refine ⟨hostAccess_refused, fun s => step_not_faults, ?_⟩
  intro i s buf msg hs s' hbuf hmsg
  obtain ⟨t, ht⟩ := exec_next (header_good_of_inv hs) i
  have hagree : OutcomesAgree (exec i s) (exec i s') := exec_agree (.of_memories hbuf hmsg) i
  rw [ht] at hagree
  obtain ⟨t', ht', hin⟩ := hagree.of_next
  have hcfg := effect_cfg (exec_effect i s t ht)
  have hout := effect_keepsOutside (exec_effect i s t ht)
  have hout' := effect_keepsOutside (exec_effect i s' t' ht')
  exact ⟨t, t', ht, ht', hin.header, hin.status, hin.result, hin.loc, hcfg ▸ hin.buf, hcfg ▸ hin.msg,
    fun a ha => ⟨hout.buf a ha, hout'.buf a ha⟩, fun a ha => ⟨hout.msg a ha, hout'.msg a ha⟩⟩

end Sys2Proof.Proofs
end

section
/-! PROOF. The opcode map by match and mask, and the illegal words (30_encoding.md R72, R73). -/

open Sys2Proof Sys2Proof.Machine

namespace Sys2Proof.Proofs

/-! ### A word and a masked word by their five fields -/

/-- A word is the format of given values exactly when its fields are those values (30_encoding.md R70). -/
theorem eq_formatC_iff {w : CmdWord} {op : BitVec 8} {ha hb : SlotField} {rows cols : Half} :
    w = formatC op ha hb rows cols ↔
      opField w = op ∧ haField w = ha ∧ hbField w = hb ∧ rowsField w = rows ∧ colsField w = cols := by
  constructor
  · rintro rfl; simp
  · rintro ⟨rfl, rfl, rfl, rfl, rfl⟩; exact (formatC_fields w).symm

section
variable (v w : CmdWord)

theorem opField_and : opField (v &&& w) = opField v &&& opField w := BitVec.extractLsb'_and
theorem haField_and : haField (v &&& w) = haField v &&& haField w := BitVec.extractLsb'_and
theorem hbField_and : hbField (v &&& w) = hbField v &&& hbField w := BitVec.extractLsb'_and
theorem rowsField_and : rowsField (v &&& w) = rowsField v &&& rowsField w := BitVec.extractLsb'_and
theorem colsField_and : colsField (v &&& w) = colsField v &&& colsField w := BitVec.extractLsb'_and

end

/-- A masked word field by field: each field of the word under the same field of the mask. -/
theorem and_formatC_eq_iff {w : CmdWord} {mop op : BitVec 8} {mha mhb ha hb : SlotField}
    {mrows mcols rows cols : Half} :
    w &&& formatC mop mha mhb mrows mcols = formatC op ha hb rows cols ↔
      opField w &&& mop = op ∧ haField w &&& mha = ha ∧ hbField w &&& mhb = hb ∧
        rowsField w &&& mrows = rows ∧ colsField w &&& mcols = cols := by
  rw [eq_formatC_iff, opField_and, haField_and, hbField_and, rowsField_and, colsField_and, opField_formatC,
    haField_formatC, hbField_formatC, rowsField_formatC, colsField_formatC]

/-- The mask nibble `E` of a slot field leaves its low bit free, which is zero exactly under the two legal slots. -/
theorem slot_and_mask_iff (f : SlotField) : f &&& 0xE = 0 ↔ f.legal = true := by
  revert f; decide

/-! ### What each format of R71 asks of the fields, and the same by its mask -/

/-- R73 (b) and (c) for a command that uses `ha` alone. -/
def OneSlotFields (w : CmdWord) : Prop :=
  (haField w).legal = true ∧ hbField w = 0 ∧ rowsField w = 0 ∧ colsField w = 0

/-- R73 (b) and (c) for `PGEN`. -/
def PgenFields (w : CmdWord) : Prop := (haField w).legal = true ∧ hbField w = 0

/-- R73 (b) and (c) for a command that uses `ha` and `hb`. -/
def TwoSlotFields (w : CmdWord) : Prop :=
  (haField w).legal = true ∧ (hbField w).legal = true ∧ rowsField w = 0 ∧ colsField w = 0

section
variable (w : CmdWord) (op : BitVec 8)

theorem oneSlotMask_iff : w &&& 0xFFEFFFFFFFFF = formatC op 0 0 0 0 ↔ opField w = op ∧ OneSlotFields w := by
  rw [show (0xFFEFFFFFFFFF : CmdWord) = formatC (.allOnes 8) 0xE (.allOnes 4) (.allOnes 16) (.allOnes 16) from rfl,
    and_formatC_eq_iff, slot_and_mask_iff]
  simp only [BitVec.and_allOnes, OneSlotFields]

theorem pgenMask_iff : w &&& 0xFFEF00000000 = formatC op 0 0 0 0 ↔ opField w = op ∧ PgenFields w := by
  rw [show (0xFFEF00000000 : CmdWord) = formatC (.allOnes 8) 0xE (.allOnes 4) 0 0 from rfl,
    and_formatC_eq_iff, slot_and_mask_iff]
  simp only [BitVec.and_allOnes, BitVec.ofNat_eq_ofNat, BitVec.and_zero, PgenFields, and_true]

theorem twoSlotMask_iff : w &&& 0xFFEEFFFFFFFF = formatC op 0 0 0 0 ↔ opField w = op ∧ TwoSlotFields w := by
  rw [show (0xFFEEFFFFFFFF : CmdWord) = formatC (.allOnes 8) 0xE 0xE (.allOnes 16) (.allOnes 16) from rfl,
    and_formatC_eq_iff, slot_and_mask_iff, slot_and_mask_iff]
  simp only [BitVec.and_allOnes, TwoSlotFields]

end

/-- One mask serves several rows of the map: the word matches one of them when its opcode is one of theirs. -/
theorem mem_matches_iff {v w : CmdWord} {fields : Prop}
    (h : ∀ op, v = formatC op 0 0 0 0 ↔ opField w = op ∧ fields) (ops : List (BitVec 8)) :
    v ∈ ops.map (formatC · 0 0 0 0) ↔ opField w ∈ ops ∧ fields := by
  simp only [List.mem_map, eq_comm (b := v), h]
  exact ⟨fun ⟨op, hmem, hop, hf⟩ => ⟨hop ▸ hmem, hf⟩, fun ⟨hmem, hf⟩ => ⟨_, hmem, rfl, hf⟩⟩

/-! ### Which command a word decodes to -/

section
variable {w : CmdWord} {op : BitVec 8} (hop : opField w = op) {i : Instr}
include hop

/-- A command the one-slot decoder answers has the word decoded, when its opcode is the word's. -/
theorem encode_of_decodeOneSlot {mk : SlotField → Instr} (hword : ∀ ha, encode (mk ha) = formatC op ha 0 0 0)
    (hlegal : ∀ ha, (mk ha).wellFormed = ha.legal) (h : decodeOneSlot w mk = .ok i) :
    w = encode i ∧ i.wellFormed = true := by
  obtain ⟨hhb, hrows, hcols, hha, rfl⟩ := (decodeOneSlot_ok_iff w mk i).mp h
  exact ⟨hword _ ▸ eq_formatC_iff.mpr ⟨hop, rfl, hhb, hrows, hcols⟩, hlegal _ ▸ hha⟩

/-- A command the two-slot decoder answers has the word decoded, when its opcode is the word's. -/
theorem encode_of_decodeTwoSlots {mk : SlotField → SlotField → Instr}
    (hword : ∀ ha hb, encode (mk ha hb) = formatC op ha hb 0 0)
    (hlegal : ∀ ha hb, (mk ha hb).wellFormed = (ha.legal && hb.legal)) (h : decodeTwoSlots w mk = .ok i) :
    w = encode i ∧ i.wellFormed = true := by
  obtain ⟨hrows, hcols, hha, hhb, rfl⟩ := (decodeTwoSlots_ok_iff w mk i).mp h
  exact ⟨hword _ _ ▸ eq_formatC_iff.mpr ⟨hop, rfl, rfl, hrows, hcols⟩, by rw [hlegal, hha, hhb]; rfl⟩

end

/-- A command `PGEN`'s decoder answers has the word decoded, when the word's opcode is `0x02`. -/
theorem encode_of_decodePgen {w : CmdWord} (hop : opField w = 0x02) {i : Instr} (h : decodePgen w = .ok i) :
    w = encode i ∧ i.wellFormed = true := by
  obtain ⟨hhb, hha, rfl⟩ := (decodePgen_ok_iff w i).mp h
  exact ⟨eq_formatC_iff.mpr ⟨hop, rfl, hhb, rfl, rfl⟩, hha⟩

/-- The decoder inverts the encoder on well-formed commands (30_encoding.md R71, R74). -/
theorem decode_encode {i : Instr} (hi : i.wellFormed = true) : decode (encode i) = .ok i := by
  cases i <;>
    simpa [decode, encode, decodeOneSlot_ok_iff, decodePgen_ok_iff, decodeTwoSlots_ok_iff, Instr.wellFormed] using hi

/-- A word decodes to a command exactly when it is the command's word and the command is well formed. -/
theorem decode_ok_iff {w : CmdWord} {i : Instr} : decode w = .ok i ↔ w = encode i ∧ i.wellFormed = true := by
  constructor
  · intro h
    unfold decode at h
    split_ifs at h with hop hop hop hop hop hop hop hop
    · exact encode_of_decodeOneSlot hop (fun _ => rfl) (fun _ => rfl) h
    · exact encode_of_decodePgen hop h
    · exact encode_of_decodeOneSlot hop (fun _ => rfl) (fun _ => rfl) h
    · exact encode_of_decodeOneSlot hop (fun _ => rfl) (fun _ => rfl) h
    · exact encode_of_decodeTwoSlots hop (fun _ _ => rfl) (fun _ _ => rfl) h
    · exact encode_of_decodeOneSlot hop (fun _ => rfl) (fun _ => rfl) h
    · exact encode_of_decodeOneSlot hop (fun _ => rfl) (fun _ => rfl) h
    · exact encode_of_decodeTwoSlots hop (fun _ _ => rfl) (fun _ _ => rfl) h
  · rintro ⟨rfl, hi⟩
    exact decode_encode hi

/-! ### Each command by its match under its mask -/

section
variable {w : CmdWord} {op : BitVec 8} {i : Instr} {ha hb : SlotField}

theorem decode_oneSlot_iff (hword : encode i = formatC op ha 0 0 0) (hlegal : i.wellFormed = ha.legal) :
    decode w = .ok i ↔ w &&& 0xFFEFFFFFFFFF = formatC op 0 0 0 0 ∧ ha.toNat = w.toNat / 2 ^ 36 % 16 := by
  rw [decode_ok_iff, hword, hlegal, eq_formatC_iff, oneSlotMask_iff, OneSlotFields, ← haField_toNat, BitVec.toNat_inj]
  constructor
  · rintro ⟨⟨hop, rfl, hhb, hrows, hcols⟩, hha⟩; exact ⟨⟨hop, hha, hhb, hrows, hcols⟩, rfl⟩
  · rintro ⟨⟨hop, hha, hhb, hrows, hcols⟩, rfl⟩; exact ⟨⟨hop, rfl, hhb, hrows, hcols⟩, hha⟩

theorem decode_pgen_iff {rows cols : Half} :
    decode w = .ok (.pgen ha rows cols) ↔ w &&& 0xFFEF00000000 = formatC 0x02 0 0 0 0 ∧
      ha.toNat = w.toNat / 2 ^ 36 % 16 ∧ rows.toNat = w.toNat / 2 ^ 16 % 65536 ∧ cols.toNat = w.toNat % 65536 := by
  rw [decode_ok_iff, encode, Instr.wellFormed, eq_formatC_iff, pgenMask_iff, PgenFields, ← haField_toNat,
    ← rowsField_toNat, ← colsField_toNat, BitVec.toNat_inj, BitVec.toNat_inj, BitVec.toNat_inj]
  constructor
  · rintro ⟨⟨hop, rfl, hhb, rfl, rfl⟩, hha⟩; exact ⟨⟨hop, hha, hhb⟩, rfl, rfl, rfl⟩
  · rintro ⟨⟨hop, hha, hhb⟩, rfl, rfl, rfl⟩; exact ⟨⟨hop, rfl, hhb, rfl, rfl⟩, hha⟩

theorem decode_twoSlots_iff (hword : encode i = formatC op ha hb 0 0) (hlegal : i.wellFormed = (ha.legal && hb.legal)) :
    decode w = .ok i ↔ w &&& 0xFFEEFFFFFFFF = formatC op 0 0 0 0 ∧
      ha.toNat = w.toNat / 2 ^ 36 % 16 ∧ hb.toNat = w.toNat / 2 ^ 32 % 16 := by
  rw [decode_ok_iff, hword, hlegal, Bool.and_eq_true, eq_formatC_iff, twoSlotMask_iff, TwoSlotFields, ← haField_toNat,
    ← hbField_toNat, BitVec.toNat_inj, BitVec.toNat_inj]
  constructor
  · rintro ⟨⟨hop, rfl, rfl, hrows, hcols⟩, hha, hhb⟩; exact ⟨⟨hop, hha, hhb, hrows, hcols⟩, rfl, rfl⟩
  · rintro ⟨⟨hop, hha, hhb, hrows, hcols⟩, rfl, rfl⟩; exact ⟨⟨hop, rfl, rfl, hrows, hcols⟩, hha, hhb⟩

end

/-! ### Which words decode at all -/

theorem exists_decodeOneSlot_iff (w : CmdWord) (mk : SlotField → Instr) :
    (∃ i, decodeOneSlot w mk = .ok i) ↔ OneSlotFields w := by
  simp only [decodeOneSlot_ok_iff, OneSlotFields]
  exact ⟨fun ⟨_, hhb, hrows, hcols, hha, _⟩ => ⟨hha, hhb, hrows, hcols⟩,
    fun ⟨hha, hhb, hrows, hcols⟩ => ⟨_, hhb, hrows, hcols, hha, rfl⟩⟩

theorem exists_decodePgen_iff (w : CmdWord) : (∃ i, decodePgen w = .ok i) ↔ PgenFields w := by
  simp only [decodePgen_ok_iff, PgenFields]
  exact ⟨fun ⟨_, hhb, hha, _⟩ => ⟨hha, hhb⟩, fun ⟨hha, hhb⟩ => ⟨_, hhb, hha, rfl⟩⟩

theorem exists_decodeTwoSlots_iff (w : CmdWord) (mk : SlotField → SlotField → Instr) :
    (∃ i, decodeTwoSlots w mk = .ok i) ↔ TwoSlotFields w := by
  simp only [decodeTwoSlots_ok_iff, TwoSlotFields]
  exact ⟨fun ⟨_, hrows, hcols, hha, hhb, _⟩ => ⟨hha, hhb, hrows, hcols⟩,
    fun ⟨hha, hhb, hrows, hcols⟩ => ⟨_, hrows, hcols, hha, hhb, rfl⟩⟩

/-- A word decodes exactly when its opcode is in the map and its other fields are as the opcode's format asks. -/
theorem exists_decode_iff (w : CmdWord) :
    (∃ i, decode w = .ok i) ↔
      (opField w ∈ [0x01, 0x03, 0x04, 0x06, 0x07] ∧ OneSlotFields w) ∨ (opField w = 0x02 ∧ PgenFields w) ∨
        (opField w ∈ [0x05, 0x08] ∧ TwoSlotFields w) := by
  unfold decode
  split_ifs with h1 h2 h3 h4 h5 h6 h7 h8
  · simp [h1, exists_decodeOneSlot_iff]
  · simp [h2, exists_decodePgen_iff]
  · simp [h3, exists_decodeOneSlot_iff]
  · simp [h4, exists_decodeOneSlot_iff]
  · simp [h5, exists_decodeTwoSlots_iff]
  · simp [h6, exists_decodeOneSlot_iff]
  · simp [h7, exists_decodeOneSlot_iff]
  · simp [h8, exists_decodeTwoSlots_iff]
  · simp only [exists_false, List.mem_cons, List.not_mem_nil, h1, h2, h3, h4, h5, h6, h7, h8, or_false,
      false_and]

/-- A word is illegal exactly when it does not decode to a command. -/
theorem decode_error_iff (w : CmdWord) : (∃ e, decode w = .error e) ↔ ¬ ∃ i, decode w = .ok i := by
  cases decode w <;> simp

/-! ### A step on a command word -/

theorem hostMove_command {s : State} (hidle : s.busy = false) (w : CmdWord) :
    hostMove (.command w) s = runCommand w s := whenIdle_of_idle hidle _

theorem runCommand_of_error {w : CmdWord} {e : DecodeError} (h : decode w = .error e) (s : State) :
    runCommand w s = .next (s.accept.raise .errIllegalCmd) := by rw [runCommand, h]

/-- A command an idle block accepts and fails changes STATUS and RESULT alone (60_exceptions.md R214). -/
theorem accept_raise_of_idle {s : State} (hidle : s.busy = false) (c : Code) :
    s.accept.raise c = { s with status := c.bits, result := 0 } := by
  rw [State.raise, State.finish, State.accept, ← hidle]

/-! ### The obligations -/

/-- Settles O3: each row is its command's format under the format's mask, and a word is illegal when its opcode and
fields agree with no format. -/
theorem opcodeMapByMatchAndMask : Obligations.OpcodeMapByMatchAndMask := by
  intro w
  refine ⟨fun ha => decode_oneSlot_iff (op := 0x01) rfl rfl, fun ha rows cols => decode_pgen_iff,
    fun ha => decode_oneSlot_iff (op := 0x03) rfl rfl, fun ha => decode_oneSlot_iff (op := 0x04) rfl rfl,
    fun ha hb => decode_twoSlots_iff (op := 0x05) rfl rfl, fun ha => decode_oneSlot_iff (op := 0x06) rfl rfl,
    fun ha => decode_oneSlot_iff (op := 0x07) rfl rfl, fun ha hb => decode_twoSlots_iff (op := 0x08) rfl rfl, ?_⟩
  rw [decode_error_iff, exists_decode_iff, ← mem_matches_iff (oneSlotMask_iff w), ← pgenMask_iff,
    ← mem_matches_iff (twoSlotMask_iff w), not_or, not_or]
  exact Iff.rfl

/-- Settles O4: the fields of the formats as numbers, and the step that raises `ERR_ILLEGAL_CMD`. -/
theorem illegalWords : Obligations.IllegalWords := by
  intro w
  refine ⟨?illegal, ?effect⟩
  case illegal =>
    rw [decode_error_iff, exists_decode_iff]
    simp only [OneSlotFields, PgenFields, TwoSlotFields, legal_iff, List.mem_cons, List.not_mem_nil, or_false,
      ← BitVec.toNat_inj, opField_toNat, haField_toNat, hbField_toNat, rowsField_toNat, colsField_toNat,
      BitVec.ofNat_eq_ofNat, BitVec.toNat_ofNat, Nat.reducePow, Nat.reduceMod]
    generalize w.toNat / 1099511627776 = op, w.toNat / 68719476736 % 16 = ha, w.toNat / 4294967296 % 16 = hb,
      w.toNat / 65536 % 65536 = rows, w.toNat % 65536 = cols
    omega
  case effect =>
    rintro ⟨e, he⟩ s rest hidle hport
    have hidle : ({ s with port := rest } : State).busy = false := hidle
    rw [step_move s _ rest hport, hostMove_command hidle, runCommand_of_error he, accept_raise_of_idle hidle]
    rfl

end Sys2Proof.Proofs
end

section
/-! PROOF. The byte at every offset of a serialized header (30_encoding.md R60). -/

open Sys2Proof Sys2Proof.Machine Sys2Proof.Claims

namespace Sys2Proof.Proofs

/-! ### The bytes of a wire integer -/

/-- Eight bits of a word as a digit of its value to the base 256. -/
theorem extractByte_toNat {n : Nat} (v : BitVec n) (i : Nat) :
    (v.extractLsb' (8 * i) 8).toNat = v.toNat / 256 ^ i % 256 := by
  rw [BitVec.extractLsb'_toNat, Nat.shiftRight_eq_div_pow, Nat.pow_mul]

/-- Byte `i` of a 16-bit wire integer (20_memory.md R44). -/
theorem getD_enc16 (e : Endian) (v : Half) {i : Nat} (hi : i < 2) :
    ((enc16 e v).getD i 0).toNat = wireByte e 2 v.toNat i := by
  cases e <;> rw [wireByte, ← extractByte_toNat] <;> interval_cases i <;> rfl

/-- Byte `i` of a 32-bit wire integer (20_memory.md R44). -/
theorem getD_enc32 (e : Endian) (v : Word) {i : Nat} (hi : i < 4) :
    ((enc32 e v).getD i 0).toNat = wireByte e 4 v.toNat i := by
  cases e <;> rw [wireByte, ← extractByte_toNat] <;> interval_cases i <;> rfl

/-! ### The parts of the message -/

/-- Past the first part of a sequence come the elements of the second. -/
theorem getD_append_add {xs : List Byte} {n : Nat} (hn : xs.length = n) (ys : List Byte) (i : Nat) :
    (xs ++ ys).getD (n + i) 0 = ys.getD i 0 := by
  subst hn
  rw [List.getD_append_right _ _ _ _ (Nat.le_add_right _ _), Nat.add_sub_cancel_left]

section
variable (e : Endian) (h : Header) {i : Nat}

theorem getD_prefixBytes_checksum (hi : i < 4) :
    (prefixBytes e h).getD i 0 = (enc32 e h.checksum).getD i 0 := by
  rw [prefixBytes, List.append_assoc, List.getD_append _ _ _ _ (by simpa using hi)]

theorem getD_prefixBytes_rows (hi : i < 2) : (prefixBytes e h).getD (4 + i) 0 = (enc16 e h.rows).getD i 0 := by
  rw [prefixBytes, List.append_assoc, getD_append_add (by simp), List.getD_append _ _ _ _ (by simpa using hi)]

theorem getD_prefixBytes_cols (i : Nat) : (prefixBytes e h).getD (6 + i) 0 = (enc16 e h.cols).getD i 0 :=
  getD_append_add (by simp) _ _

/-- The message begins with copy A and copy B of the first eight bytes. -/
theorem getD_serialize_prefixBytes (hi : i < 8) :
    (serialize e h).getD i 0 = (prefixBytes e h).getD i 0 ∧
      (serialize e h).getD (8 + i) 0 = (prefixBytes e h).getD i 0 := by
  have hi : i < (prefixBytes e h).length := by simpa using hi
  simp only [serialize, List.append_assoc]
  exact ⟨List.getD_append _ _ _ _ hi, by rw [getD_append_add (by simp), List.getD_append _ _ _ _ hi]⟩

/-- The value of a byte of `prefixBytes` stands in both copies. -/
theorem serialize_copies {p n : Nat} (hp : p < 8) (hn : ((prefixBytes e h).getD p 0).toNat = n) :
    ((serialize e h).getD p 0).toNat = n ∧ ((serialize e h).getD (8 + p) 0).toNat = n := by
  obtain ⟨hA, hB⟩ := getD_serialize_prefixBytes e h hp
  rw [hA, hB]
  exact ⟨hn, hn⟩

theorem getD_serialize_rowsum (hi : i < 4) :
    (serialize e h).getD (16 + i) 0 = (enc32 e (sum32 h.rp)).getD i 0 := by
  rw [serialize, List.append_assoc, List.append_assoc, getD_append_add (by simp),
    List.getD_append _ _ _ _ (by simpa using hi)]

theorem getD_serialize_rp (hi : i < h.rp.length) : (serialize e h).getD (20 + i) 0 = h.rp.getD i 0 := by
  rw [serialize, List.append_assoc, getD_append_add (by simp), List.getD_append _ _ _ _ hi]

theorem getD_serialize_cp (j : Nat) : (serialize e h).getD (20 + h.rp.length + j) 0 = h.cp.getD j 0 :=
  getD_append_add (by simp; omega) _ _

end

/-! ### The obligation -/

/-- Settles O52: each offset lies in one part of the message, and there in one wire integer or parity sequence. -/
theorem wireFormatLayout : Obligations.WireFormatLayout := by
  intro e h hs
  obtain ⟨hrpBound, -⟩ := Header.wellShaped.lengths hs
  obtain ⟨hrpLen, hcpLen⟩ := hs
  refine ⟨?length, fun i hi => ?checksum, fun i hi => ?rows, fun i hi => ?cols, fun i hi => ?rowsum, fun i hi => ?rp,
    fun j _ => ?cp⟩
  case length => rw [length_serialize, hrpLen, hcpLen]
  case checksum =>
    exact serialize_copies e h (by omega) (by rw [getD_prefixBytes_checksum e h hi, getD_enc32 e _ hi])
  case rows =>
    rw [show 12 + i = 8 + (4 + i) by omega]
    exact serialize_copies e h (by omega) (by rw [getD_prefixBytes_rows e h hi, getD_enc16 e _ hi])
  case cols =>
    rw [show 14 + i = 8 + (6 + i) by omega]
    exact serialize_copies e h (by omega) (by rw [getD_prefixBytes_cols, getD_enc16 e _ hi])
  case rowsum =>
    beta_reduce
    rw [getD_serialize_rowsum e h hi, getD_enc32 e _ hi, sum32_toNat _ hrpBound, byteSum]
  case rp => exact congrArg BitVec.toNat (getD_serialize_rp e h (hrpLen ▸ hi))
  case cp => exact congrArg BitVec.toNat (hrpLen ▸ getD_serialize_cp e h j)

end Sys2Proof.Proofs
end

section
/-! PROOF. The parity of a byte, and the single pass of `derive` against its closed form (40_parity_generator.md). -/

open Sys2Proof Sys2Proof.Machine Sys2Proof.Claims

namespace Sys2Proof.Proofs

/-! ### The parity of a byte -/

/-- The XOR of two bits is their sum modulo 2. -/
theorem toNat_xor_bit (x y : Bool) : (x ^^ y).toNat = (x.toNat + y.toNat) % 2 := by
  cases x <;> cases y <;> rfl

/-- Bit `i` of a byte as a binary digit of its value. -/
theorem toNat_getElem_byte (b : Byte) (i : Nat) (hi : i < 8) : b[i].toNat = b.toNat / 2 ^ i % 2 := by
  rw [BitVec.getElem_eq_testBit_toNat, Nat.toNat_testBit]

/-- R100's XOR of the eight bits counts them modulo 2. -/
theorem parity8_toNat (b : Byte) : (parity8 b).toNat = ones b % 2 := by
  have widen : ∀ x : Bool, ((BitVec.ofBool x).setWidth 8 : Byte).toNat = x.toNat := by decide
  have digits : ones b = b[0].toNat + b[1].toNat + b[2].toNat + b[3].toNat + b[4].toNat + b[5].toNat + b[6].toNat +
      b[7].toNat := by
    simp [ones, toNat_getElem_byte, List.range_succ, Nat.add_assoc]
  simp only [parity8, widen, digits, toNat_xor_bit]
  omega

/-- A mask with an even number of 1 bits has parity 0. -/
theorem parity8_eq_zero_of_even {m : Byte} (hm : ones m % 2 = 0) : parity8 m = 0 :=
  BitVec.eq_of_toNat_eq ((parity8_toNat m).trans hm)

/-- Settles O43: the count of 1 bits modulo 2 is the XOR of the bits, so a mask with an even count adds parity 0. -/
theorem parityOfAByte : Obligations.ParityOfAByte := by
  refine ⟨parity8_toNat, parity8_xor, parity8_msbmask, fun b m hm => ?_⟩
  rw [parity8_xor, parity8_eq_zero_of_even hm]
  exact BitVec.xor_zero

/-! ### The XOR of a sequence -/

@[simp] theorem xorAll_nil : xorAll [] = 0 := rfl

@[simp] theorem xorAll_cons (b : Byte) (bytes : List Byte) : xorAll (b :: bytes) = b ^^^ xorAll bytes := rfl

/-- The order of the elements does not matter. -/
theorem xorAll_perm {xs ys : List Byte} (h : xs.Perm ys) : xorAll xs = xorAll ys :=
  have : LeftCommutative (α := Byte) (β := Byte) (· ^^^ ·) :=
    ⟨fun a b c => by rw [← BitVec.xor_assoc, BitVec.xor_comm a, BitVec.xor_assoc]⟩
  h.foldr_eq 0

/-- The parity of the XOR is the XOR of the parities (40_parity_generator.md R102 (a)). -/
theorem parity8_xorAll (bytes : List Byte) : parity8 (xorAll bytes) = xorAll (bytes.map parity8) := by
  induction bytes with
  | nil => exact parity8_zero
  | cons b bytes ih => rw [xorAll_cons, parity8_xor, ih, List.map_cons, xorAll_cons]

/-! ### What the pass accumulates -/

/-- XOR the value of each byte into the element at the place of the byte's position. -/
def accumulate (place : Nat → Nat) (value : Byte → Byte) (items : List (Byte × Nat)) (acc : List Byte) : List Byte :=
  items.foldl (fun xs a => xorAt xs (place a.2) (value a.1)) acc

theorem accumulate_cons (place : Nat → Nat) (value : Byte → Byte) (a : Byte × Nat) (items : List (Byte × Nat))
    (acc : List Byte) :
    accumulate place value (a :: items) acc = accumulate place value items (xorAt acc (place a.2) (value a.1)) := rfl

/-- The pass accumulates the bytes by row and their parities by column. -/
theorem derivePass_eq_accumulate (rows i : Nat) (buf rp cp : List Byte) :
    derivePass rows i buf rp cp =
      (accumulate (· % rows) id (buf.zipIdx i) rp, accumulate (· / rows) parity8 (buf.zipIdx i) cp) := by
  induction buf generalizing i rp cp with
  | nil => rfl
  | cons b buf ih => exact ih _ _ _

/-- Element `j` takes the XOR of the values whose place is `j`. -/
theorem getD_accumulate (place : Nat → Nat) (value : Byte → Byte) (items : List (Byte × Nat)) {acc : List Byte}
    {j : Nat} (hj : j < acc.length) :
    (accumulate place value items acc).getD j 0 =
      acc.getD j 0 ^^^ xorAll ((items.filter fun a => place a.2 = j).map fun a => value a.1) := by
  induction items generalizing acc with
  | nil => simp [accumulate]
  | cons a items ih =>
    rw [accumulate_cons, ih (by simpa using hj), getD_xorAt]
    by_cases h : place a.2 = j
    · simp [h, hj, BitVec.xor_assoc]
    · simp [h, Ne.symm h]

/-- The positions of a buffer with their bytes. -/
theorem zipIdx_eq_map_range (buf : List Byte) :
    buf.zipIdx = (List.range buf.length).map fun p => (buf.getD p 0, p) := by
  refine List.ext_getElem (by simp) fun p hp hp' => ?_
  have hp : p < buf.length := by simpa using hp
  simp [hp]

/-- The positions accumulated at place `j` can be listed in any order and without repetition, here by `g`. -/
theorem getD_accumulate_zipIdx {buf acc : List Byte} {place g : Nat → Nat} {j m : Nat} (value : Byte → Byte)
    (hj : j < acc.length) (hzero : acc.getD j 0 = 0) (hg : g.Injective)
    (hplace : ∀ p, p < buf.length ∧ place p = j ↔ ∃ k < m, g k = p) :
    (accumulate place value buf.zipIdx acc).getD j 0 =
      xorAll ((List.range m).map fun k => value (buf.getD (g k) 0)) := by
  have hperm : ((List.range buf.length).filter (place · = j)).Perm ((List.range m).map g) := by
    refine (List.perm_ext_iff_of_nodup (List.nodup_range.filter _) (List.nodup_range.map hg)).mpr fun p => ?_
    simpa using hplace p
  have hvalues := xorAll_perm (hperm.map fun p => value (buf.getD p 0))
  rw [List.map_map] at hvalues
  rw [getD_accumulate _ _ _ hj, hzero, zipIdx_eq_map_range, List.filter_map, List.map_map]
  exact BitVec.zero_xor.trans hvalues

/-! ### The positions of a row and of a column -/

section
variable {rows cols : Nat}

/-- A position of row `r` is `c * rows + r` for one of the columns `c` (20_memory.md R42). -/
theorem position_in_row_iff {r : Nat} (hr : r < rows) (p : Nat) :
    p < rows * cols ∧ p % rows = r ↔ ∃ c < cols, c * rows + r = p := by
  constructor
  · rintro ⟨hp, rfl⟩
    exact ⟨p / rows, Nat.div_lt_of_lt_mul hp, Nat.div_add_mod' p rows⟩
  · rintro ⟨c, hc, rfl⟩
    exact ⟨position_lt rows cols c r hc hr, (position_row_col rows c r hr).1⟩

/-- A position of column `c` is `c * rows + r` for one of the rows `r` (20_memory.md R42). -/
theorem position_in_col_iff {c : Nat} (hc : c < cols) (p : Nat) :
    p < rows * cols ∧ p / rows = c ↔ ∃ r < rows, c * rows + r = p := by
  constructor
  · rintro ⟨hp, rfl⟩
    exact ⟨p % rows, Nat.mod_lt _ (Nat.pos_of_lt_mul_right hp), Nat.div_add_mod' p rows⟩
  · rintro ⟨r, hr, rfl⟩
    exact ⟨position_lt rows cols c r hc hr, (position_row_col rows c r hr).2⟩

end

/-! ### The derived header -/

section
variable {buf : List Byte} {rows cols : Half} (hlen : buf.length = rows.toNat * cols.toNat)
include hlen

/-- A row element is the XOR of the bytes at its offset over all column blocks (40_parity_generator.md R104). -/
theorem derive_rp_getD {r : Nat} (hr : r < rows.toNat) :
    (derive buf rows cols).rp.getD r 0 =
      xorAll ((List.range cols.toNat).map fun c => buf.getD (c * rows.toNat + r) 0) := by
  simp only [derive, derivePass_eq_accumulate]
  refine getD_accumulate_zipIdx (g := (· * rows.toNat + r)) id (by rwa [List.length_replicate])
    (List.getD_replicate _ hr) (fun c c' h => ?_) fun p => ?_
  · exact Nat.eq_of_mul_eq_mul_right (Nat.zero_lt_of_lt hr) (Nat.add_right_cancel h)
  · rw [hlen]; exact position_in_row_iff hr p

/-- A column element is the XOR of the parities of its block (40_parity_generator.md R104). -/
theorem derive_cp_getD {c : Nat} (hc : c < cols.toNat) :
    (derive buf rows cols).cp.getD c 0 =
      xorAll ((List.range rows.toNat).map fun r => parity8 (buf.getD (c * rows.toNat + r) 0)) := by
  simp only [derive, derivePass_eq_accumulate]
  refine getD_accumulate_zipIdx (g := (c * rows.toNat + ·)) parity8 (by rwa [List.length_replicate])
    (List.getD_replicate _ hc) (fun r r' h => ?_) fun p => ?_
  · exact Nat.add_left_cancel h
  · rw [hlen]; exact position_in_col_iff hc p

/-- A column element is the parity of the XOR of its block. -/
theorem derive_cp_getD_eq_parity8 {c : Nat} (hc : c < cols.toNat) :
    (derive buf rows cols).cp.getD c 0 =
      parity8 (xorAll ((List.range rows.toNat).map fun r => buf.getD (c * rows.toNat + r) 0)) := by
  rw [derive_cp_getD hlen hc, parity8_xorAll, List.map_map]; rfl

/-- Every column element is a parity. -/
theorem derive_cp_mem_cases {x : Byte} (hx : x ∈ (derive buf rows cols).cp) : x = 0 ∨ x = 1 := by
  obtain ⟨c, hc, rfl⟩ := List.mem_iff_getElem.mp hx
  rw [← List.getD_eq_getElem _ 0 hc, derive_cp_getD_eq_parity8 hlen (by simpa using hc)]
  exact parity8_cases _

end

theorem derive_wellShaped (buf : List Byte) (rows cols : Half) : (derive buf rows cols).wellShaped :=
  ⟨length_derive_rp buf rows cols, length_derive_cp buf rows cols⟩

/-- The checksum of a derived header is the true sum (40_parity_generator.md R105). -/
theorem derive_consistent (buf : List Byte) (rows cols : Half) : (derive buf rows cols).consistent := by
  obtain ⟨hrp, hcp⟩ := Header.wellShaped.lengths (derive_wellShaped buf rows cols)
  exact checksumOf_toNat rows cols _ _ hrp hcp

/-! ### The obligations about `derive` -/

/-- Settles O44: the pass accumulates by row and by column, and the positions of a row or a column are those of the
closed form. -/
theorem deriveClosedForm : Obligations.DeriveClosedForm := by
  intro buf rows cols hlen
  exact ⟨⟨derive_rows _ _ _, derive_cols _ _ _, length_derive_rp _ _ _, length_derive_cp _ _ _,
    fun _ hr => derive_rp_getD hlen hr, fun _ hc => derive_cp_getD hlen hc, derive_consistent _ _ _⟩,
    fun _ hc => derive_cp_getD_eq_parity8 hlen hc⟩

/-- Settles O45: the checksum does not wrap, and a column element is the parity of its block. -/
theorem derivedHeaderIsGood : Obligations.DerivedHeaderIsGood := by
  intro buf rows cols hlen
  exact ⟨derive_wellShaped buf rows cols, derive_consistent buf rows cols, fun _ hx => derive_cp_mem_cases hlen hx⟩

end Sys2Proof.Proofs
end

section
/-! PROOF. The sums of the checksum do not wrap, equality of headers is equality of their messages, and `HCMP` of one
slot (41_checksum_compare.md). -/

open Sys2Proof Sys2Proof.Machine Sys2Proof.Claims

namespace Sys2Proof.Proofs

/-! ### Sums of bytes -/

theorem byteSum_append (xs ys : List Byte) : byteSum (xs ++ ys) = byteSum xs + byteSum ys := by
  simp [byteSum]

/-- A sequence of parities sums to at most its length. -/
theorem byteSum_le_length {bytes : List Byte} (h : ∀ x ∈ bytes, x = 0 ∨ x = 1) : byteSum bytes ≤ bytes.length := by
  have hle : ∀ n ∈ bytes.map BitVec.toNat, n ≤ 1 := by
    intro n hn
    obtain ⟨x, hx, rfl⟩ := List.mem_map.mp hn
    obtain rfl | rfl := h x hx <;> decide
  simpa [byteSum] using List.sum_le_card_nsmul _ 1 hle

/-- The checksum of a well-shaped header is the true sum (41_checksum_compare.md R123). -/
theorem calcChecksum_toNat {h : Header} (hs : h.wellShaped) : (calcChecksum h).toNat = checksumNat h := by
  obtain ⟨hrp, hcp⟩ := hs.lengths
  exact checksumOf_toNat _ _ _ _ hrp hcp

/-- The true sum is the sum of the dimensions exactly when every parity element is zero. -/
theorem checksumNat_eq_dims_iff (h : Header) :
    checksumNat h = h.rows.toNat + h.cols.toNat ↔ ∀ x, x ∈ h.rp ++ h.cp → x = 0 := by
  rw [← byteSum_eq_zero_iff, ← byteSum, byteSum_append, checksumNat]
  omega

/-- Settles O49: a byte is at most 255 and a sequence has at most 65535 of them; a derived column element is a
parity. -/
theorem checksumNeverWraps : Obligations.ChecksumNeverWraps := by
  refine ⟨fun bytes hlen => ⟨sum32_toNat bytes hlen, ?bound⟩, fun buf rows cols hlen => ?derived, fun h hs => ?header⟩
  case bound => exact (byteSum_le bytes).trans (Nat.mul_le_mul_left 255 hlen)
  case derived =>
    obtain ⟨-, hcp⟩ := (derive_wellShaped buf rows cols).lengths
    rw [sum32_toNat _ hcp, ← length_derive_cp buf rows cols]
    exact byteSum_le_length fun _ hx => derive_cp_mem_cases hlen hx
  case header =>
    obtain ⟨hrp, hcp⟩ := hs.lengths
    have hrpSum : byteSum h.rp ≤ 255 * h.rp.length := byteSum_le h.rp
    have hcpSum : byteSum h.cp ≤ 255 * h.cp.length := byteSum_le h.cp
    have hrows := h.rows.isLt
    have hcols := h.cols.isLt
    rw [calcChecksum_toNat hs]
    refine ⟨rfl, sum32_toNat _ hrp, sum32_toNat _ hcp, ?_, ?_, checksumNat_eq_dims_iff h⟩ <;> rw [checksumNat] <;> omega

/-! ### A header is determined by its message -/

/-- A 16-bit value is its two bytes, the high one first. -/
theorem bytes_append_half (v : Half) : v.extractLsb' 8 8 ++ v.extractLsb' 0 8 = v :=
  (BitVec.extractLsb'_append_extractLsb'_eq_extractLsb' rfl).trans BitVec.extractLsb'_eq_self

/-- A 32-bit value is its four bytes, the highest one first. -/
theorem bytes_append_word (v : Word) :
    v.extractLsb' 24 8 ++ v.extractLsb' 16 8 ++ v.extractLsb' 8 8 ++ v.extractLsb' 0 8 = v := by
  rw [BitVec.extractLsb'_append_extractLsb'_eq_extractLsb' (show 24 = 16 + 8 from rfl),
    BitVec.extractLsb'_append_extractLsb'_eq_extractLsb' (show 16 = 8 + 8 from rfl),
    BitVec.extractLsb'_append_extractLsb'_eq_extractLsb' (show 8 = 0 + 8 from rfl)]
  exact BitVec.extractLsb'_eq_self

section
variable {e : Endian}

/-- Decoding inverts encoding on 16 bits (20_memory.md R44). -/
theorem dec16_of_enc16_eq {v : Half} {b0 b1 : Byte} (h : enc16 e v = [b0, b1]) : dec16 e b0 b1 = v := by
  cases e <;> cases h <;> exact bytes_append_half v

/-- Decoding inverts encoding on 32 bits (20_memory.md R44). -/
theorem dec32_of_enc32_eq {v : Word} {b0 b1 b2 b3 : Byte} (h : enc32 e v = [b0, b1, b2, b3]) :
    dec32 e b0 b1 b2 b3 = v := by
  cases e <;> cases h <;> exact bytes_append_word v

theorem enc16_injective : Function.Injective (enc16 e) := by
  intro v w h
  obtain ⟨b0, b1, hw⟩ := List.length_eq_two.mp (length_enc16 e w)
  exact (dec16_of_enc16_eq (h.trans hw)).symm.trans (dec16_of_enc16_eq hw)

theorem enc32_injective : Function.Injective (enc32 e) := by
  intro v w h
  obtain ⟨b0, b1, b2, b3, hw⟩ := List.length_eq_four.mp (length_enc32 e w)
  exact (dec32_of_enc32_eq (h.trans hw)).symm.trans (dec32_of_enc32_eq hw)

/-- The first eight bytes determine the checksum and the dimensions (30_encoding.md R60). -/
theorem prefixBytes_inj {a b : Header} (h : prefixBytes e a = prefixBytes e b) :
    a.checksum = b.checksum ∧ a.rows = b.rows ∧ a.cols = b.cols := by
  obtain ⟨h, hcols⟩ := List.append_inj' h (by simp)
  obtain ⟨hchecksum, hrows⟩ := List.append_inj' h (by simp)
  exact ⟨enc32_injective hchecksum, enc16_injective hrows, enc16_injective hcols⟩

/-- The first eight bytes give the dimensions, and these say where `rp` ends and `cp` begins. -/
theorem serialize_inj {a b : Header} (ha : a.wellShaped) (hb : b.wellShaped) (h : serialize e a = serialize e b) :
    a = b := by
  obtain ⟨harp, hacp⟩ := ha
  obtain ⟨hbrp, hbcp⟩ := hb
  simp only [serialize, List.append_assoc] at h
  obtain ⟨hfirst, h⟩ := List.append_inj h (by simp)
  obtain ⟨-, h⟩ := List.append_inj h (by simp)
  obtain ⟨-, h⟩ := List.append_inj h (by simp)
  obtain ⟨hchecksum, hrows, hcols⟩ := prefixBytes_inj hfirst
  obtain ⟨hrp, hcp⟩ := List.append_inj h (by rw [harp, hbrp, hrows])
  cases a
  cases b
  rw [Header.mk.injEq]
  exact ⟨hchecksum, hrows, hcols, hrp, hcp⟩

end

/-- The checksum of a consistent header is a function of its other fields. -/
theorem checksum_eq_of_consistent {a b : Header} (ha : a.consistent) (hb : b.consistent) (hrows : a.rows = b.rows)
    (hcols : a.cols = b.cols) (hrp : a.rp = b.rp) (hcp : a.cp = b.cp) : a.checksum = b.checksum := by
  apply BitVec.eq_of_toNat_eq
  rw [ha, hb, hrows, hcols, hrp, hcp]

/-- Settles O50: `hdr_eq` is equality of header values, and the message determines a well-shaped one. -/
theorem equalityOfHeaders : Obligations.EqualityOfHeaders := by
  simp only [Obligations.EqualityOfHeaders, hdrEq_iff]
  exact ⟨fun _ => trivial, fun _ _ => Eq.symm, fun _ _ _ => Eq.trans,
    fun _ _ _ ha hb => ⟨congrArg _, serialize_inj ha hb⟩, fun _ _ => congrArg _,
    fun _ _ => checksum_eq_of_consistent⟩

/-! ### `HCMP` -/

/-- `HCMP` of two named slots answers whether their headers are equal (41_checksum_compare.md R127). -/
theorem exec_hcmp {ha hb : SlotField} {a b : Slot} (hna : namesSlot ha a) (hnb : namesSlot hb b) (s : State) :
    exec (.hcmp ha hb) s = .next (s.done (compareResult (hdrEq (s.header a) (s.header b)))) :=
  onSlots_some ha hb a b s _ ((slotOf_eq_some_iff ha a).mpr hna) ((slotOf_eq_some_iff hb b).mpr hnb)

/-- Settles O22: a header equals itself. -/
theorem hcmpSameSlotEqual : Obligations.HcmpSameSlotEqual := by
  intro s ha a hna
  refine ⟨_, exec_hcmp hna hna s, State.done_status s _, ?_⟩
  rw [State.done_result, (hdrEq_iff _ _).mpr rfl, compareResult, if_pos rfl]

end Sys2Proof.Proofs
end

section
/-! PROOF. What the deserializer accepts is exactly a serialized good header (43_deserializer.md R150, R162). -/

open Sys2Proof Sys2Proof.Machine Sys2Proof.Claims

namespace Sys2Proof.Proofs

/-! ### Encoding inverts decoding -/

/-- Above its low byte a bit string holds the rest of it, eight bits further down. -/
theorem extractByte_append_byte {n : Nat} (x : BitVec n) (b : Byte) (i : Nat) :
    (x ++ b).extractLsb' (8 + i) 8 = x.extractLsb' i 8 := by
  rw [BitVec.extractLsb'_append_eq_of_le (Nat.le_add_right 8 i), Nat.add_sub_cancel_left]

/-- The two bytes of a 16-bit value. -/
theorem bytes_of_half (b1 b0 : Byte) : (b1 ++ b0).extractLsb' 8 8 = b1 ∧ (b1 ++ b0).extractLsb' 0 8 = b0 :=
  ⟨BitVec.extractLsb'_append_eq_left, BitVec.extractLsb'_append_eq_right⟩

/-- The four bytes of a 32-bit value. -/
theorem bytes_of_word (b3 b2 b1 b0 : Byte) :
    (b3 ++ b2 ++ b1 ++ b0).extractLsb' 24 8 = b3 ∧ (b3 ++ b2 ++ b1 ++ b0).extractLsb' 16 8 = b2 ∧
      (b3 ++ b2 ++ b1 ++ b0).extractLsb' 8 8 = b1 ∧ (b3 ++ b2 ++ b1 ++ b0).extractLsb' 0 8 = b0 := by
  obtain ⟨h3, h2⟩ := bytes_of_half b3 b2
  refine ⟨?_, ?_, ?_, BitVec.extractLsb'_append_eq_right⟩
  · exact ((extractByte_append_byte _ b0 16).trans (extractByte_append_byte _ b1 8)).trans h3
  · exact ((extractByte_append_byte _ b0 8).trans (extractByte_append_byte _ b1 0)).trans h2
  · exact (extractByte_append_byte _ b0 0).trans BitVec.extractLsb'_append_eq_right

/-- Encoding inverts decoding on 16 bits (20_memory.md R44). -/
theorem enc16_dec16 (e : Endian) (b0 b1 : Byte) : enc16 e (dec16 e b0 b1) = [b0, b1] := by
  cases e <;> simp only [enc16, dec16, bytes_of_half]

/-- Encoding inverts decoding on 32 bits (20_memory.md R44). -/
theorem enc32_dec32 (e : Endian) (b0 b1 b2 b3 : Byte) : enc32 e (dec32 e b0 b1 b2 b3) = [b0, b1, b2, b3] := by
  cases e <;> simp only [enc32, dec32, bytes_of_word]

/-! ### Reading a message part by part -/

section
variable {e : Endian} (m : Nat → Byte)

theorem memRead_eq_enc16_iff (a : Nat) (v : Half) : memRead m a 2 = enc16 e v ↔ dec16 e (m a) (m (a + 1)) = v :=
  ⟨fun h => dec16_of_enc16_eq h.symm, fun h => h ▸ (enc16_dec16 ..).symm⟩

theorem memRead_eq_enc32_iff (a : Nat) (v : Word) :
    memRead m a 4 = enc32 e v ↔ dec32 e (m a) (m (a + 1)) (m (a + 2)) (m (a + 3)) = v :=
  ⟨fun h => dec32_of_enc32_eq h.symm, fun h => h ▸ (enc32_dec32 ..).symm⟩

/-- Consecutive stretches are read one after the other. -/
theorem memRead_eq_append_iff {xs ys : List Byte} {n : Nat} (hn : xs.length = n) (a k : Nat) :
    memRead m a (n + k) = xs ++ ys ↔ memRead m a n = xs ∧ memRead m (a + n) k = ys := by
  have hsplit : memRead m a (n + k) = memRead m a n ++ memRead m (a + n) k := by
    simp [memRead, List.range_add, Nat.add_assoc]
  rw [hsplit]
  exact ⟨fun h => List.append_inj h (by rw [length_memRead, hn]), fun ⟨h, g⟩ => by rw [h, g]⟩

/-- Copy A holds a header's first eight bytes when its three integers decode to the header's (30_encoding.md R60). -/
theorem memRead_eq_prefixBytes_iff (h : Header) :
    memRead m 0 8 = prefixBytes e h ↔
      dec32 e (m 0) (m 1) (m 2) (m 3) = h.checksum ∧ dec16 e (m 4) (m 5) = h.rows ∧ dec16 e (m 6) (m 7) = h.cols := by
  rw [prefixBytes, List.append_assoc, memRead_eq_append_iff m (n := 4) (length_enc32 _ _) 0 4, memRead_eq_enc32_iff,
    memRead_eq_append_iff m (n := 2) (length_enc16 _ _) _ 2, memRead_eq_enc16_iff, memRead_eq_enc16_iff]

/-- The five parts of a message stand at the offsets of the table (30_encoding.md R60). -/
theorem memRead_eq_parts_iff {copyA copyB rowsum rp cp : List Byte} {r : Nat} (hA : copyA.length = 8)
    (hB : copyB.length = 8) (hsum : rowsum.length = 4) (hrp : rp.length = r) (c : Nat) :
    memRead m 0 (20 + r + c) = copyA ++ (copyB ++ (rowsum ++ (rp ++ cp))) ↔
      memRead m 0 8 = copyA ∧ memRead m 8 8 = copyB ∧ memRead m 16 4 = rowsum ∧ memRead m 20 r = rp ∧
        memRead m (20 + r) c = cp := by
  rw [show 20 + r + c = 8 + (8 + (4 + (r + c))) by omega, memRead_eq_append_iff m hA, memRead_eq_append_iff m hB,
    memRead_eq_append_iff m hsum, memRead_eq_append_iff m hrp]

end

/-- A message as its five parts. -/
theorem serialize_eq_parts (e : Endian) (h : Header) :
    serialize e h = prefixBytes e h ++ (prefixBytes e h ++ (enc32 e (sum32 h.rp) ++ (h.rp ++ h.cp))) := by
  simp only [serialize, List.append_assoc]

/-- A well-shaped header's message is read part by part. -/
theorem memRead_eq_serialize_iff (m : Nat → Byte) {e : Endian} {h : Header} (hs : h.wellShaped) :
    memRead m 0 (20 + h.rows.toNat + h.cols.toNat) = serialize e h ↔
      memRead m 0 8 = prefixBytes e h ∧ memRead m 8 8 = prefixBytes e h ∧ memRead m 16 4 = enc32 e (sum32 h.rp) ∧
        memRead m 20 h.rows.toNat = h.rp ∧ memRead m (20 + h.rows.toNat) h.cols.toNat = h.cp := by
  obtain ⟨hrp, -⟩ := hs
  rw [serialize_eq_parts, memRead_eq_parts_iff m (by simp) (by simp) (by simp) hrp]

/-! ### The checks on a message -/

section
variable {cfg : Config} {m : Nat → Byte} {h : Header}

/-- Copies that differ are the first failure (43_deserializer.md R150). -/
theorem deserializeCheck_of_copies_ne (hne : memRead m 0 8 ≠ memRead m 8 8) :
    deserializeCheck cfg m = .error .desPrefixMismatch := by
  rw [deserializeCheck, if_pos hne]

/-- With both copies those of a good header, the first three checks pass and the sums decide. -/
theorem deserializeCheck_of_copies (hg : h.good cfg) (hA : memRead m 0 8 = prefixBytes cfg.wireEndian h)
    (hB : memRead m 8 8 = prefixBytes cfg.wireEndian h) {rp cp : List Byte} (hrp : memRead m 20 h.rows.toNat = rp)
    (hcp : memRead m (20 + h.rows.toNat) h.cols.toNat = cp) :
    deserializeCheck cfg m =
      if sum32 rp ≠ dec32 cfg.wireEndian (m 16) (m 17) (m 18) (m 19) then .error .desRowsumMismatch
      else if h.checksum ≠ checksumOf h.rows h.cols rp cp then .error .desChecksumMismatch
      else .ok { h with rp := rp, cp := cp } := by
  obtain ⟨-, hcons, hrows, hcols⟩ := hg
  obtain ⟨hchecksum, hr, hc⟩ := (memRead_eq_prefixBytes_iff m h).mp hA
  have hbound : ¬ h.checksum < h.rows.setWidth 32 + h.cols.setWidth 32 := by
    rw [BitVec.lt_def, dims_toNat, hcons]; omega
  have hcap : ¬ (cfg.maxRows < h.rows.toNat ∨ cfg.maxCols < h.cols.toNat) := by omega
  simp only [deserializeCheck, hchecksum, hr, hc, hrp, hcp]
  rw [if_neg (not_not.mpr (hA.trans hB.symm)), if_neg hbound, if_neg hcap]

/-- The stored checksum of a good header is the 32-bit sum of its parts (10_state.md R23 (b)). -/
theorem checksum_eq_checksumOf_of_good (hg : h.good cfg) : h.checksum = checksumOf h.rows h.cols h.rp h.cp := by
  obtain ⟨hs, hcons, -⟩ := hg
  exact beq_iff_eq.mp ((confirmChecksum_iff hs).mpr hcons)

/-- Accepted is exactly the message of a good header, and it gives that header. -/
theorem deserializeCheck_eq_ok_iff :
    deserializeCheck cfg m = .ok h ↔
      h.good cfg ∧ memRead m 0 (20 + h.rows.toNat + h.cols.toNat) = serialize cfg.wireEndian h := by
  constructor
  · intro hok
    have hg := deserializeCheck_ok_good cfg m h hok
    refine ⟨hg, (memRead_eq_serialize_iff m hg.1).mpr ?_⟩
    rcases deserializeCheck_cases cfg m with
      ⟨-, e⟩ | ⟨-, -, e⟩ | ⟨-, -, e⟩ | ⟨-, -, e⟩ | ⟨-, -, e⟩ | ⟨⟨⟨⟨hcopies, -⟩, -⟩, hsum⟩, -, e⟩
    all_goals rw [e] at hok; cases hok
    exact ⟨(memRead_eq_prefixBytes_iff m _).mpr ⟨rfl, rfl, rfl⟩,
      hcopies.symm.trans ((memRead_eq_prefixBytes_iff m _).mpr ⟨rfl, rfl, rfl⟩),
      (memRead_eq_enc32_iff m 16 _).mpr hsum.symm, rfl, rfl⟩
  · rintro ⟨hg, hm⟩
    obtain ⟨hA, hB, hsum, hrp, hcp⟩ := (memRead_eq_serialize_iff m hg.1).mp hm
    rw [deserializeCheck_of_copies hg hA hB hrp hcp, if_neg (not_not.mpr ((memRead_eq_enc32_iff m 16 _).mp hsum).symm),
      if_neg (not_not.mpr (checksum_eq_checksumOf_of_good hg))]

end

/-! ### The two commands -/

theorem exec_hdes {ha : SlotField} {a : Slot} (hna : namesSlot ha a) (s : State) :
    exec (.hdes ha) s = .next (deserializeInto a s) :=
  onSlot_some ha a s _ ((slotOf_eq_some_iff ha a).mpr hna)

/-- An accepted message is loaded (43_deserializer.md R152). -/
theorem deserializeInto_of_ok {s : State} {h : Header} (hok : deserializeCheck s.cfg s.msgByte = .ok h) (a : Slot) :
    deserializeInto a s = (s.setHeader a h).done 1 := by
  simp only [deserializeInto, hok]

/-- A refused message raises its code (43_deserializer.md R152, R159). -/
theorem deserializeInto_of_error {s : State} {c : Code} (herr : deserializeCheck s.cfg s.msgByte = .error c)
    (a : Slot) : deserializeInto a s = s.raise c := by
  simp only [deserializeInto, herr]

/-- A sequence written to MSG is read back. -/
theorem memRead_writeMsg (s : State) (a : Nat) (bytes : List Byte) :
    memRead (s.writeMsg a bytes).msgByte a bytes.length = bytes := by
  refine memRead_eq_of_getElem? _ a bytes fun i hi => ?_
  rw [State.writeMsg_msgByte, if_pos ⟨Nat.le_add_right a i, by omega⟩, Nat.add_sub_cancel_left,
    List.getD_eq_getElem _ _ hi]

/-- `HSER` of a good header leaves a message that is accepted as that header (42_serializer.md R141). -/
theorem exec_hser_deserializes {s : State} {ha : SlotField} {a : Slot} (hna : namesSlot ha a)
    (hg : (s.header a).good s.cfg) :
    ∃ t, exec (.hser ha) s = .next t ∧ sameSlots s t ∧ deserializeCheck t.cfg t.msgByte = .ok (s.header a) := by
  refine ⟨(s.writeMsg 0 (serialize s.cfg.wireEndian (s.header a))).done (messageLength (s.header a)),
    (onSlot_some ha a s _ ((slotOf_eq_some_iff ha a).mpr hna)).trans (if_pos (length_serialize_le_msgBytes hg _)),
    fun g => by rw [State.done_header, State.writeMsg_header], deserializeCheck_eq_ok_iff.mpr ⟨hg, ?_⟩⟩
  have ⟨⟨hrp, hcp⟩, _⟩ := hg
  rw [← hrp, ← hcp, ← length_serialize s.cfg.wireEndian]
  exact memRead_writeMsg s 0 _

/-- The slot whose header is loaded into another slot holds an equal one. -/
theorem setHeader_header_eq (s : State) (a b : Slot) : (s.setHeader b (s.header a)).header a = s.header a := by
  by_cases hab : a = b
  · rw [hab, State.setHeader_header_same]
  · exact State.setHeader_header_other s b a _ hab

/-! ### The obligation -/

/-- Settles O53: the deserializer accepts exactly the messages of good headers, and a derived header is good. -/
theorem headerRoundTrip : Obligations.HeaderRoundTrip := by
  refine ⟨fun cfg m buf rows cols _ _ _ hrows hcols hm => ⟨?derived, ?confirms⟩, fun cfg m h hs hcons hfits hm => ?good,
    fun cfg m h hok => ?converse, fun s ha hb a b hinv hna hnb => ?commands⟩
  case derived =>
    exact deserializeCheck_eq_ok_iff.mpr ⟨⟨derive_wellShaped _ _ _, derive_consistent _ _ _, hrows, hcols⟩, hm⟩
  case confirms => exact (confirmChecksum_iff (derive_wellShaped _ _ _)).mpr (derive_consistent _ _ _)
  case good => exact deserializeCheck_eq_ok_iff.mpr ⟨⟨hs, hcons, hfits⟩, hm⟩
  case converse => exact (deserializeCheck_eq_ok_iff.mp hok).2.symm
  case commands =>
    obtain ⟨t, ht, hslots, hok⟩ := exec_hser_deserializes hna (header_good_of_inv hinv a)
    refine ⟨t, (t.setHeader b (s.header a)).done 1, ht, ?_, rfl, (hdrEq_iff _ _).mpr ?_⟩
    · rw [exec_hdes hnb, deserializeInto_of_ok hok]
    · rw [State.done_header, State.done_header, State.setHeader_header_same, ← hslots, setHeader_header_eq]

end Sys2Proof.Proofs
end

section
/-! PROOF. One corrupted byte of a message is detected, and the region it lies in fixes the code (43_deserializer.md
R160, R163). -/

open Sys2Proof Sys2Proof.Machine Sys2Proof.Claims

namespace Sys2Proof.Proofs

/-! ### One changed element of a sequence -/

/-- In the first part of a sequence the change stays in that part. -/
theorem xorAt_append_left {xs : List Byte} {i : Nat} (hi : i < xs.length) (ys : List Byte) (v : Byte) :
    xorAt (xs ++ ys) i v = xorAt xs i v ++ ys := by
  simp only [xorAt_eq_set, List.set_append_left i _ hi, List.getD_append _ _ _ _ hi]

/-- Past the first part of a sequence the change is in the second. -/
theorem xorAt_append_add {xs : List Byte} {n : Nat} (hn : xs.length = n) (ys : List Byte) (i : Nat) (v : Byte) :
    xorAt (xs ++ ys) (n + i) v = xs ++ xorAt ys i v := by
  simp only [xorAt_eq_set, getD_append_add hn]
  rw [List.set_append_right _ _ (by omega), hn, Nat.add_sub_cancel_left]

/-- A nonzero change of an element changes the 32-bit sum: the terms of the other elements cancel. -/
theorem sum32_xorAt_ne {bytes : List Byte} {i : Nat} {v : Byte} (hi : i < bytes.length) (hv : v ≠ 0) :
    sum32 (xorAt bytes i v) ≠ sum32 bytes := by
  induction bytes generalizing i with
  | nil => simp at hi
  | cons b bytes ih =>
    cases i with
    | zero =>
      intro h
      have hwide : (b ^^^ v).setWidth 32 = b.setWidth 32 := (BitVec.add_left_inj _).mp h
      have hbyte : b ^^^ v = b := by bv_omega
      exact hv ((BitVec.xor_right_inj b).mp (hbyte.trans BitVec.xor_zero.symm))
    | succ i => exact fun h => ih (Nat.lt_of_succ_lt_succ hi) ((BitVec.add_right_inj _).mp h)

theorem xorAt_ne_self {bytes : List Byte} {i : Nat} {v : Byte} (hi : i < bytes.length) (hv : v ≠ 0) :
    xorAt bytes i v ≠ bytes := fun h => sum32_xorAt_ne hi hv (congrArg sum32 h)

/-! ### The code of each region -/

/-- The failure code of a message whose only corrupted byte is at `p` (43_deserializer.md R163). -/
def corruptionCode (h : Header) (p : Nat) : Code :=
  if p < 16 then .desPrefixMismatch else if p < 20 + h.rows.toNat then .desRowsumMismatch else .desChecksumMismatch

section
variable {cfg : Config} {m : Nat → Byte} {h : Header} {v : Byte} {p : Nat} (hg : h.good cfg) (hv : v ≠ 0)
include hg hv

/-- In copy A or in copy B: the copies differ. -/
theorem deserializeCheck_copy_corrupted (hp : p < 16)
    (hm : memRead m 0 (20 + h.rows.toNat + h.cols.toNat) = xorAt (serialize cfg.wireEndian h) p v) :
    deserializeCheck cfg m = .error .desPrefixMismatch := by
  apply deserializeCheck_of_copies_ne
  obtain ⟨⟨hrp, -⟩, -⟩ := hg
  rw [serialize_eq_parts] at hm
  by_cases hA : p < 8
  · have hA : p < (prefixBytes cfg.wireEndian h).length := by rwa [length_prefixBytes]
    rw [xorAt_append_left hA] at hm
    obtain ⟨hcopyA, hcopyB, -⟩ := (memRead_eq_parts_iff m (by simp) (by simp) (by simp) hrp _).mp hm
    rw [hcopyA, hcopyB]
    exact xorAt_ne_self hA hv
  · obtain ⟨i, rfl⟩ := Nat.exists_eq_add_of_le (Nat.not_lt.mp hA)
    have hB : i < (prefixBytes cfg.wireEndian h).length := by rw [length_prefixBytes]; omega
    rw [xorAt_append_add (by simp), xorAt_append_left hB] at hm
    obtain ⟨hcopyA, hcopyB, -⟩ := (memRead_eq_parts_iff m (by simp) (by simp) (by simp) hrp _).mp hm
    rw [hcopyA, hcopyB]
    exact (xorAt_ne_self hB hv).symm

/-- In the stored row sum or in a row element: the sum of the row elements is not the stored one. -/
theorem deserializeCheck_rowsum_or_rp_corrupted (hp16 : 16 ≤ p) (hp : p < 20 + h.rows.toNat)
    (hm : memRead m 0 (20 + h.rows.toNat + h.cols.toNat) = xorAt (serialize cfg.wireEndian h) p v) :
    deserializeCheck cfg m = .error .desRowsumMismatch := by
  have ⟨⟨hrp, _⟩, _⟩ := hg
  obtain ⟨i, rfl⟩ := Nat.exists_eq_add_of_le hp16
  rw [serialize_eq_parts, show 16 + i = 8 + (8 + i) by omega, xorAt_append_add (by simp),
    xorAt_append_add (by simp)] at hm
  by_cases hsum : i < 4
  · have hsum : i < (enc32 cfg.wireEndian (sum32 h.rp)).length := by rwa [length_enc32]
    rw [xorAt_append_left hsum] at hm
    obtain ⟨hcopyA, hcopyB, hrowsum, hrows, hcols⟩ :=
      (memRead_eq_parts_iff m (by simp) (by simp) (by simp) hrp _).mp hm
    rw [deserializeCheck_of_copies hg hcopyA hcopyB hrows hcols, if_pos]
    rw [ne_comm, ← (memRead_eq_enc32_iff m 16 _).ne, hrowsum]
    exact xorAt_ne_self hsum hv
  · obtain ⟨i, rfl⟩ := Nat.exists_eq_add_of_le (Nat.not_lt.mp hsum)
    have hrow : i < h.rp.length := by omega
    rw [xorAt_append_add (by simp), xorAt_append_left hrow] at hm
    obtain ⟨hcopyA, hcopyB, hrowsum, hrows, hcols⟩ :=
      (memRead_eq_parts_iff m (by simp) (by simp) (by simp) (by rwa [length_xorAt]) _).mp hm
    rw [deserializeCheck_of_copies hg hcopyA hcopyB hrows hcols, if_pos]
    rw [(memRead_eq_enc32_iff m 16 _).mp hrowsum]
    exact sum32_xorAt_ne hrow hv

/-- In a column element: the row sum is as stored, and the checksum is not the sum of the parts. -/
theorem deserializeCheck_cp_corrupted (hp20 : 20 + h.rows.toNat ≤ p) (hp : p < 20 + h.rows.toNat + h.cols.toNat)
    (hm : memRead m 0 (20 + h.rows.toNat + h.cols.toNat) = xorAt (serialize cfg.wireEndian h) p v) :
    deserializeCheck cfg m = .error .desChecksumMismatch := by
  have ⟨⟨hrp, hcp⟩, _⟩ := hg
  obtain ⟨i, rfl⟩ := Nat.exists_eq_add_of_le hp20
  rw [serialize_eq_parts, show 20 + h.rows.toNat + i = 8 + (8 + (4 + (h.rows.toNat + i))) by omega,
    xorAt_append_add (by simp), xorAt_append_add (by simp), xorAt_append_add (by simp), xorAt_append_add hrp] at hm
  obtain ⟨hcopyA, hcopyB, hrowsum, hrows, hcols⟩ :=
    (memRead_eq_parts_iff m (by simp) (by simp) (by simp) hrp _).mp hm
  rw [deserializeCheck_of_copies hg hcopyA hcopyB hrows hcols,
    if_neg (not_not.mpr ((memRead_eq_enc32_iff m 16 _).mp hrowsum).symm), if_pos]
  rw [checksum_eq_checksumOf_of_good hg]
  exact fun hck => sum32_xorAt_ne (by omega) hv ((BitVec.add_right_inj _).mp hck).symm

/-- A message with one corrupted byte is refused with the code of the region. -/
theorem deserializeCheck_corrupted (hp : p < 20 + h.rows.toNat + h.cols.toNat)
    (hm : memRead m 0 (20 + h.rows.toNat + h.cols.toNat) = xorAt (serialize cfg.wireEndian h) p v) :
    deserializeCheck cfg m = .error (corruptionCode h p) := by
  unfold corruptionCode
  split_ifs with hcopy hrow
  · exact deserializeCheck_copy_corrupted hg hv hcopy hm
  · exact deserializeCheck_rowsum_or_rp_corrupted hg hv (Nat.not_lt.mp hcopy) hrow hm
  · exact deserializeCheck_cp_corrupted hg hv (Nat.not_lt.mp hrow) hp hm

end

/-! ### The obligation -/

/-- Memory that holds a sequence but for one element reads as the sequence with that element changed. -/
theorem memRead_eq_xorAt {m : Nat → Byte} {bytes : List Byte} {p : Nat} {v : Byte}
    (hm : ∀ q, q < bytes.length → m q = if q = p then bytes.getD q 0 ^^^ v else bytes.getD q 0) :
    memRead m 0 bytes.length = xorAt bytes p v := by
  refine ext_getD _ _ (by simp) fun q hq => ?_
  rw [length_memRead] at hq
  rw [List.getD_eq_getElem _ _ (by simpa using hq), getElem_memRead, Nat.zero_add, hm q hq, getD_xorAt]
  by_cases hqp : q = p
  · rw [if_pos hqp, if_pos ⟨hqp, hqp ▸ hq⟩]
  · rw [if_neg hqp, if_neg fun hand => hqp hand.1]

/-- Settles O54: the corrupted part fails its own check and the parts before it pass theirs; swapping two row elements
that differ in one bit each keeps every sum. -/
theorem singleBitCorruptionDetected : Obligations.SingleBitCorruptionDetected := by
  constructor
  · intro s ha a h p k hna hs hcons hfits hk hp hm
    have hread : memRead s.msgByte 0 (20 + h.rows.toNat + h.cols.toNat) =
        xorAt (serialize s.cfg.wireEndian h) p (msbmask k) := by
      have ⟨hrp, hcp⟩ := hs
      rw [← hrp, ← hcp, ← length_serialize s.cfg.wireEndian] at hm ⊢
      exact memRead_eq_xorAt hm
    have herr := deserializeCheck_corrupted ⟨hs, hcons, hfits⟩ (msbmask_ne_zero k hk) hp hread
    refine ⟨s.raise (corruptionCode h p), ?_, fun g => State.raise_header s _ g, rfl, ?_⟩
    · rw [exec_hdes hna, deserializeInto_of_error herr]
    · rw [State.raise_status, corruptionCode]
      split_ifs <;> rfl
  · refine ⟨{ checksum := 4, rows := 2, cols := 1, rp := [1, 0], cp := [0] },
      { checksum := 4, rows := 2, cols := 1, rp := [0, 1], cp := [0] }, by decide, by decide, by decide, rfl, rfl,
      by decide, by decide, fun m hm => deserializeCheck_eq_ok_iff.mpr ⟨by decide, hm⟩⟩

end Sys2Proof.Proofs
end

section
/-! PROOF. What the locator finds, and the byte and bit that `repair` flips (44_repair.md). -/

open Sys2Proof Sys2Proof.Machine Sys2Proof.Claims

namespace Sys2Proof.Proofs

/-! ### The flipped byte and bit -/

/-- `bit_row % 8` is the bit position again (44_repair.md R177, R178). -/
theorem flipMask_eq (row : Nat) {k : Nat} (hk : k < 8) : flipMask row k = msbmask k := by
  rw [flipMask, bitRow, Nat.mul_add_mod, Nat.mod_eq_of_lt hk]

/-- Settles O57: division of `bit_row` by 8 gives the row and the position back, and the locator takes the position
of the one bit in which the row elements differ. -/
theorem flipIsRowDifference : Obligations.FlipIsRowDifference := by
  refine ⟨fun rows col row k hk => ⟨flipAddr_eq rows col row hk, flipMask_eq row hk⟩, fun t o col row k hl => ?_⟩
  obtain ⟨-, -, -, -, -, -, hk, hmask⟩ := locate_flip t o col row k hl
  exact ⟨hk, hmask⟩

/-- The bit located with a well-shaped trusted header lies inside the buffer (44_repair.md R184). -/
theorem flip_inside_buffer {t o : Header} {col row k : Nat} (hs : t.wellShaped) (hl : locate t o = .flip col row k) :
    col < t.cols.toNat ∧ row < t.rows.toNat ∧ flipAddr t.rows col row k < t.rows.toNat * t.cols.toNat := by
  obtain ⟨hrp, hcp⟩ := hs
  obtain ⟨hcol, hrow⟩ := locate_flip_lt t o col row k hl
  obtain ⟨-, -, -, -, -, -, hk, -⟩ := locate_flip t o col row k hl
  rw [hcp] at hcol
  rw [hrp] at hrow
  exact ⟨hcol, hrow, (flipAddr_eq _ _ _ hk).trans_lt (position_lt _ _ col row hcol hrow)⟩

/-- Settles O58: the located column and row are below the dimensions, and a dimension is at most 65535. -/
theorem flipAddressInsideBuffer : Obligations.FlipAddressInsideBuffer := by
  intro cfg t o col row k _ hs hfits hl
  obtain ⟨hrows, hcols⟩ := hfits
  obtain ⟨hcol, hrow, haddr⟩ := flip_inside_buffer hs hl
  obtain ⟨-, -, -, -, -, -, hk, -⟩ := locate_flip t o col row k hl
  have hrows16 : t.rows.toNat ≤ 65535 := Nat.le_of_lt_succ t.rows.isLt
  have hcols16 : t.cols.toNat ≤ 65535 := Nat.le_of_lt_succ t.cols.isLt
  have hsize : t.rows.toNat * t.cols.toNat ≤ 65535 * 65535 := Nat.mul_le_mul hrows16 hcols16
  refine ⟨hcol, hrow, Nat.le_sub_one_of_lt haddr, haddr.trans_le (dims_le_bufBytes hrows hcols), by omega, ?_⟩
  rw [bitRow]; omega

/-! ### The scan of two sequences that differ in one element -/

/-- Equal sequences differ nowhere. -/
@[simp] theorem diffFrom_self (n : Nat) (xs : List Byte) : diffFrom n xs xs = [] := by
  induction xs generalizing n with
  | nil => rfl
  | cons x xs ih => simp [diffFrom, ih]

/-- After a nonzero change of one element the scan finds that element alone. -/
theorem diffFrom_xorAt (n : Nat) {xs : List Byte} {i : Nat} {v : Byte} (hi : i < xs.length) (hv : v ≠ 0) :
    diffFrom n xs (xorAt xs i v) = [n + i] := by
  induction xs generalizing n i with
  | nil => simp at hi
  | cons x xs ih =>
    cases i with
    | zero =>
      have hx : x ≠ x ^^^ v := fun h => hv ((BitVec.xor_right_inj x).mp (h.symm.trans BitVec.xor_zero.symm))
      rw [xorAt, diffFrom, if_pos hx, diffFrom_self, Nat.add_zero]
    | succ i =>
      rw [xorAt, diffFrom, if_neg (not_not.mpr rfl), ih (n + 1) (Nat.lt_of_succ_lt_succ hi), Nat.add_right_comm,
        Nat.add_assoc]

theorem diffIndices_xorAt {xs : List Byte} {i : Nat} {v : Byte} (hi : i < xs.length) (hv : v ≠ 0) :
    diffIndices xs (xorAt xs i v) = [i] := by
  rw [diffIndices, diffFrom_xorAt 0 hi hv, Nat.zero_add]

/-! ### The repair of one flipped bit -/

/-- One differing column, one differing row and one differing bit are a flip: the converse of `locate_flip`. -/
theorem locate_eq_flip {t o : Header} {col row k : Nat} (hck : confirmChecksum t = true) (hrows : t.rows = o.rows)
    (hcols : t.cols = o.cols) (hcp : diffIndices t.cp o.cp = [col]) (hrp : diffIndices t.rp o.rp = [row])
    (hk : k < 8) (hmask : t.rp.getD row 0 ^^^ o.rp.getD row 0 = msbmask k) : locate t o = .flip col row k := by
  have hne : ¬ hdrEq t o = true := by
    rw [hdrEq_iff]
    rintro rfl
    simp [diffIndices] at hcp
  have hbit : locateBit col row (t.rp.getD row 0 ^^^ o.rp.getD row 0) = .flip col row k := by
    rw [hmask, locateBit, if_neg (not_not.mpr (popcount_msbmask k hk)), msbPosition_msbmask k hk]
  have hrow : locateRow t o col = .flip col row k := by rw [locateRow, hrp]; exact hbit
  simp [locate, hck, hne, hrows, hcols, hcp, hrow]

/-- The headers before and after the flip of one bit locate that bit (44_repair.md R182). -/
theorem locate_derive_xorAt {rows cols : Half} {x : List Byte} {c r k : Nat}
    (hlen : x.length = rows.toNat * cols.toNat) (hc : c < cols.toNat) (hr : r < rows.toNat) (hk : k < 8) :
    locate (derive x rows cols) (derive (xorAt x (c * rows.toNat + r) (msbmask k)) rows cols) = .flip c r k := by
  have hp : c * rows.toNat + r < x.length := hlen ▸ position_lt _ _ c r hc hr
  obtain ⟨hmod, hdiv⟩ := position_row_col rows.toNat c r hr
  obtain ⟨hrp, hcp⟩ := derive_xorAt x rows cols _ (msbmask k) hp
  rw [hmod] at hrp
  rw [hdiv, parity8_msbmask k hk] at hcp
  have hrow : r < (derive x rows cols).rp.length := by rwa [length_derive_rp]
  have hcol : c < (derive x rows cols).cp.length := by rwa [length_derive_cp]
  refine locate_eq_flip ((confirmChecksum_iff (derive_wellShaped _ _ _)).mpr (derive_consistent _ _ _)) rfl rfl
    ?_ ?_ hk ?_
  · rw [hcp]; exact diffIndices_xorAt hcol (by decide)
  · rw [hrp]; exact diffIndices_xorAt hrow (msbmask_ne_zero k hk)
  · rw [hrp, getD_xorAt, if_pos ⟨rfl, hrow⟩, ← BitVec.xor_assoc, BitVec.xor_self, BitVec.zero_xor]

/-- Settles O55: the locator names the flipped bit, and flipping it once more restores the buffer. -/
theorem singleBitRepaired : Obligations.SingleBitRepaired := by
  intro rows cols x c r k hlen hc hr hk
  change repair _ (derive (x.set _ (_ ^^^ msbmask k)) rows cols) (x.set _ (_ ^^^ msbmask k)) = _
  simp only [← xorAt_eq_set, repair, locate_derive_xorAt hlen hc hr hk, derive_rows, flipAddr_eq _ _ _ hk,
    flipMask_eq _ hk, xorAt_xorAt_self]

end Sys2Proof.Proofs
end

section
/-! PROOF. What the end of `RPR` tells of the headers it was given (44_repair.md R186, R189). -/

open Sys2Proof Sys2Proof.Machine Sys2Proof.Claims

namespace Sys2Proof.Proofs

/-- `RPR` of two named slots works on their headers (44_repair.md R180). -/
theorem exec_rpr {ha hb : SlotField} {a b : Slot} (hna : namesSlot ha a) (hnb : namesSlot hb b) (s : State) :
    exec (.rpr ha hb) s = repairBuf (s.header a) (s.header b) s :=
  onSlots_some ha hb a b s _ ((slotOf_eq_some_iff ha a).mpr hna) ((slotOf_eq_some_iff hb b).mpr hnb)

/-! ### The tests before the scans -/

section
variable {t : Header} (s : State)

theorem repairBuf_of_checksum_wrong (hck : confirmChecksum t = false) (o : Header) :
    repairBuf t o s = .next (s.raise .rprBadChecksum) := by
  simp [repairBuf, locate, hck]

theorem repairBuf_self (hck : confirmChecksum t = true) : repairBuf t t s = .next (s.done 0) := by
  simp [repairBuf, locate, hck, (hdrEq_iff t t).mpr rfl]

theorem repairBuf_of_dims_ne {o : Header} (hck : confirmChecksum t = true) (hdims : t.rows ≠ o.rows ∨ t.cols ≠ o.cols) :
    repairBuf t o s = .next (s.raise .rprDimMismatch) := by
  have hne : ¬ hdrEq t o = true := by
    rw [hdrEq_iff]
    rintro rfl
    simp at hdims
  simp [repairBuf, locate, hck, hne, hdims]

end

/-! ### What the status tells -/

section
variable {t o : Header} {s u : State} (hu : repairBuf t o s = .next u)
include hu

/-- A status other than 0x20: the trusted header passed the checksum test. -/
theorem confirmChecksum_of_status (hst : u.status ≠ 0x20) : confirmChecksum t = true := by
  by_contra hck
  rw [repairBuf_of_checksum_wrong s (Bool.eq_false_of_not_eq_true hck) o] at hu
  cases hu
  exact hst rfl

/-- A status other than 0x20 and 0x21: the dimensions agree. -/
theorem dims_eq_of_status (hst : u.status ≠ 0x20) (hst' : u.status ≠ 0x21) : t.rows = o.rows ∧ t.cols = o.cols := by
  by_contra hdims
  rw [repairBuf_of_dims_ne s (confirmChecksum_of_status hu hst) (not_and_or.mp hdims)] at hu
  cases hu
  exact hst' rfl

/-- Status 0x21: the headers differ, for a header and itself are the no-op. -/
theorem headers_ne_of_status (hst : u.status = 0x21) : t ≠ o := by
  rintro rfl
  have hck := confirmChecksum_of_status hu (by rw [hst]; decide)
  rw [repairBuf_self s hck] at hu
  cases hu
  exact absurd (show Code.bits .ok = 0x21 from hst) (by decide)

end

/-- Settles O29: a status past a test of the locator tells that the test was passed. -/
theorem rprStatusTellsTheHeaders : Obligations.RprStatusTellsTheHeaders := by
  intro s t ha hb a b hna hnb ht
  rw [exec_rpr hna hnb] at ht
  refine ⟨fun hst => confirmChecksum_of_status ht ?_, fun hst => dims_eq_of_status ht ?_ ?_, fun hst => ?unequal⟩
  case unequal => rw [hdrEq_eq_decide]; exact decide_eq_false (headers_ne_of_status ht hst)
  all_goals intro h; simp [h] at hst

/-! ### The same slot twice -/

/-- The end of a command writes STATUS, RESULT and BUSY alone (60_exceptions.md R214). -/
theorem sameButResponse_finish (s : State) (c : Code) (v : Word) : sameButResponse s (s.finish c v) :=
  ⟨s.finish_header c v, fun _ => rfl, fun _ => rfl, rfl, rfl, rfl, rfl, rfl⟩

/-- Settles O30: a header equals itself, so past the checksum test `RPR` is the no-op. -/
theorem rprSameSlot : Obligations.RprSameSlot := by
  intro s ha a hna hs
  rw [exec_rpr hna hna, ← confirmChecksum_iff hs]
  cases hck : confirmChecksum (s.header a) with
  | false =>
    exact ⟨_, repairBuf_of_checksum_wrong s hck _, sameButResponse_finish s _ _, fun _ => ⟨rfl, rfl, rfl⟩, nofun⟩
  | true =>
    exact ⟨_, repairBuf_self s hck, sameButResponse_finish s _ _, fun h => absurd rfl h, fun _ => ⟨rfl, rfl, rfl⟩⟩

end Sys2Proof.Proofs
end

section
/-! PROOF. How a command ends: BUSY low, and nothing changed by a failure (10_state.md R30, 60_exceptions.md R214). -/

open Sys2Proof Sys2Proof.Machine Sys2Proof.Claims

namespace Sys2Proof.Proofs

section
variable {i : Instr} {s t : State} (ht : exec i s = .next t)
include ht

/-- BUSY falls with the command's end, whatever the form of the next state. -/
theorem busy_of_exec : t.busy = false := by
  cases exec_effect i s t ht <;> subst t <;> rfl

/-- A status other than OK comes from `raise`: every other form of a next state is a `done`. -/
theorem failure_of_exec (hst : t.status ≠ 0x00) : t.result = 0 ∧ sameButResponse s t := by
  cases exec_effect i s t ht with
  | failed c hc h => exact h ▸ ⟨rfl, sameButResponse_finish s c 0⟩
  | answered | loaded | serialized | flipped => subst t; exact absurd rfl hst

end

end Sys2Proof.Proofs
end

section
/-! PROOF. Which message gives which status of `HDES` (43_deserializer.md R150, 60_exceptions.md R201). -/

open Sys2Proof Sys2Proof.Machine Sys2Proof.Claims

namespace Sys2Proof.Proofs

/-! ### The checks over the natural numbers -/

section
variable (e : Endian) (m : Nat → Byte) (a : Nat)

/-- A byte below a bit string adds its value to 256 times the string's. -/
theorem append_byte_toNat {n : Nat} (x : BitVec n) (b : Byte) : (x ++ b).toNat = x.toNat * 256 + b.toNat := by
  rw [BitVec.toNat_append, ← Nat.shiftLeft_add_eq_or_of_lt b.isLt, Nat.shiftLeft_eq]

/-- A 16-bit wire integer decodes to its value (20_memory.md R44). -/
theorem wireNat_two : wireNat e m a 2 = (dec16 e (m a) (m (a + 1))).toNat := by
  cases e <;> simp [wireNat, dec16, append_byte_toNat]

/-- A 32-bit wire integer decodes to its value (20_memory.md R44). -/
theorem wireNat_four : wireNat e m a 4 = (dec32 e (m a) (m (a + 1)) (m (a + 2)) (m (a + 3))).toNat := by
  cases e <;> simp [wireNat, dec32, append_byte_toNat]

theorem copiesAgree_iff : copiesAgree m ↔ memRead m 0 8 = memRead m 8 8 := by
  simp [copiesAgree, memRead]

end

/-- The sum of a stretch of at most 65535 bytes, as the deserializer computes it, does not wrap. -/
theorem byteSum_memRead (m : Nat → Byte) (a : Nat) (n : Half) :
    byteSum (memRead m a n.toNat) = (sum32 (memRead m a n.toNat)).toNat := by
  rw [sum32_toNat _ (by rw [length_memRead]; exact Nat.le_of_lt_succ n.isLt), byteSum]

/-- The checksum over two stretches as long as the dimensions, as the deserializer computes it, does not wrap. -/
theorem checksumOf_memRead (m : Nat → Byte) (a b : Nat) (rows cols : Half) :
    (checksumOf rows cols (memRead m a rows.toNat) (memRead m b cols.toNat)).toNat =
      rows.toNat + cols.toNat + (sum32 (memRead m a rows.toNat)).toNat + (sum32 (memRead m b cols.toNat)).toNat := by
  rw [← byteSum_memRead, ← byteSum_memRead]
  exact checksumOf_toNat _ _ _ _ (by rw [length_memRead]; omega) (by rw [length_memRead]; omega)

/-! ### The table of R201 -/

/-- The status `HDES` ends with, from what the deserializer answers (43_deserializer.md R152). -/
def hdesStatus : Except Code Header → BitVec 8
  | .error c => c.bits
  | .ok _ => 0x00

theorem deserializeInto_status (a : Slot) (s : State) :
    (deserializeInto a s).status = hdesStatus (deserializeCheck s.cfg s.msgByte) := by
  cases h : deserializeCheck s.cfg s.msgByte with
  | error c => rw [deserializeInto_of_error h]; rfl
  | ok v => rw [deserializeInto_of_ok h]; rfl

/-- Five checks in order: as the clauses exclude each other and their codes differ, the status tells the clause. -/
theorem hdesStatus_iff {copies bound short fits beyond rowsum total : Prop} {r : Except Code Header} {v : Header}
    (hshort : short ↔ ¬ bound) (hbeyond : beyond ↔ ¬ fits)
    (hcases : (¬ copies ∧ r = .error .desPrefixMismatch) ∨ (copies ∧ short ∧ r = .error .desDimBound) ∨
      ((copies ∧ bound) ∧ beyond ∧ r = .error .desCapacity) ∨
      (((copies ∧ bound) ∧ fits) ∧ ¬ rowsum ∧ r = .error .desRowsumMismatch) ∨
      ((((copies ∧ bound) ∧ fits) ∧ rowsum) ∧ ¬ total ∧ r = .error .desChecksumMismatch) ∨
      ((((copies ∧ bound) ∧ fits) ∧ rowsum) ∧ total ∧ r = .ok v)) :
    (hdesStatus r = 0x10 ↔ ¬ copies) ∧ (hdesStatus r = 0x11 ↔ copies ∧ short) ∧
    (hdesStatus r = 0x12 ↔ (copies ∧ bound) ∧ beyond) ∧
    (hdesStatus r = 0x13 ↔ ((copies ∧ bound) ∧ fits) ∧ ¬ rowsum) ∧
    (hdesStatus r = 0x14 ↔ (((copies ∧ bound) ∧ fits) ∧ rowsum) ∧ ¬ total) ∧
    (hdesStatus r = 0x00 ↔ (((copies ∧ bound) ∧ fits) ∧ rowsum) ∧ total) := by
  rw [hshort, hbeyond] at hcases ⊢
  rcases hcases with ⟨h, rfl⟩ | ⟨h, h', rfl⟩ | ⟨h, h', rfl⟩ | ⟨h, h', rfl⟩ | ⟨h, h', rfl⟩ | ⟨h, h', rfl⟩ <;>
    simp [hdesStatus, Code.bits, *]

/-! ### The obligation -/

/-- Settles O25: the checks in their order, read over the natural numbers; the first that fails gives the status. -/
theorem hdesFailureCodes : Obligations.HdesFailureCodes := by
  intro s ha a hna
  have ht := exec_hdes hna s
  obtain ⟨h10, h11, h12, h13, h14, h00⟩ :=
    hdesStatus_iff Nat.not_le.symm (by rw [not_and_or, Nat.not_le, Nat.not_le]) (deserializeCheck_cases s.cfg s.msgByte)
  rw [← deserializeInto_status a s] at h10 h11 h12 h13 h14 h00
  refine ⟨_, ht, ?_⟩
  simp only [wireNat_two, wireNat_four, copiesAgree_iff, byteSum_memRead, ← checksumOf_memRead, BitVec.toNat_inj, ne_eq]
  exact ⟨h10, h11, h12, h13, h14, h00, busy_of_exec ht, failure_of_exec ht⟩

end Sys2Proof.Proofs
end

section
/-! PROOF. Which pair of headers gives which status of `RPR` (44_repair.md R171, 60_exceptions.md R202, R203). -/

open Sys2Proof Sys2Proof.Machine Sys2Proof.Claims

namespace Sys2Proof.Proofs

/-! ### The scans as counts -/

section
variable {xs ys : List Byte} {n : Nat} (hx : xs.length = n) (hy : ys.length = n)
include hx hy

theorem diffCount_eq_length : diffCount n xs ys = (diffIndices xs ys).length := by
  rw [diffIndices_eq xs ys (hx.trans hy.symm), hx, diffCount, List.countP_eq_length_filter]

/-- When the scan finds one row, more than one differing bit in some row means in that row (44_repair.md R176). -/
theorem exists_multiBit_iff {row : Nat} (hrow : diffIndices xs ys = [row]) :
    (∃ r, r < n ∧ xs.getD r 0 ≠ ys.getD r 0 ∧ 2 ≤ ones (xs.getD r 0 ^^^ ys.getD r 0)) ↔
      popcount (xs.getD row 0 ^^^ ys.getD row 0) ≠ 1 := by
  have hbits : ∀ d : Byte, d ≠ 0 → (popcount d ≠ 1 ↔ 2 ≤ ones d) := by decide
  have hmem : ∀ r, r = row ↔ r < n ∧ xs.getD r 0 ≠ ys.getD r 0 := by
    intro r
    rw [← hx, ← mem_diffIndices xs ys (hx.trans hy.symm), hrow, List.mem_singleton]
  obtain ⟨hlt, hne⟩ := (hmem row).mp rfl
  rw [hbits _ (mt BitVec.xor_eq_zero_iff.mp hne)]
  constructor
  · rintro ⟨r, hr, hr', h⟩
    obtain rfl := (hmem r).mpr ⟨hr, hr'⟩
    exact h
  · exact fun h => ⟨row, hlt, hne, h⟩

end

/-! ### The tables of R202 and R203 -/

/-- The status `RPR` ends with, from the locator's verdict (44_repair.md R180). -/
def rprStatus : Verdict → BitVec 8
  | .fail c => c.bits
  | .noop | .flip .. => 0x00

/-- RESULT of `RPR`, from the locator's verdict: 1 for a flip alone (10_state.md R28). -/
def rprResult : Verdict → Word
  | .fail _ | .noop => 0
  | .flip .. => 1

/-- On well-shaped headers the verdict follows the counts of differing columns and rows: each case of the locator
satisfies its own clause and no other, and the codes differ. -/
theorem locate_table {t o : Header} (ht : t.wellShaped) (ho : o.wellShaped) :
    let v := locate t o
    let cols := diffCount t.cols.toNat t.cp o.cp
    let rows := diffCount t.rows.toNat t.rp o.rp
    let past := t.consistent ∧ t ≠ o ∧ t.rows = o.rows ∧ t.cols = o.cols
    let bits := fun r => r < t.rows.toNat ∧ t.rp.getD r 0 ≠ o.rp.getD r 0 ∧ 2 ≤ ones (t.rp.getD r 0 ^^^ o.rp.getD r 0)
    (rprStatus v = 0x20 ↔ ¬ t.consistent) ∧
    (rprStatus v = 0x21 ↔ t.consistent ∧ t ≠ o ∧ (t.rows ≠ o.rows ∨ t.cols ≠ o.cols)) ∧
    (rprStatus v = 0x22 ↔ past ∧ cols = 0) ∧
    (rprStatus v = 0x23 ↔ past ∧ 2 ≤ cols) ∧
    (rprStatus v = 0x24 ↔ past ∧ cols = 1 ∧ rows = 0) ∧
    (rprStatus v = 0x25 ↔ past ∧ cols = 1 ∧ 2 ≤ rows) ∧
    (rprStatus v = 0x26 ↔ past ∧ cols = 1 ∧ rows = 1 ∧ ∃ r, bits r) ∧
    (rprStatus v = 0x00 ∧ rprResult v = 0 ↔ t.consistent ∧ t = o) := by
  intro v cols rows past bits
  have hcounts : past → cols = (diffIndices t.cp o.cp).length ∧ rows = (diffIndices t.rp o.rp).length := by
    rintro ⟨-, -, hr, hc⟩
    exact ⟨diffCount_eq_length ht.2 (hc ▸ ho.2), diffCount_eq_length ht.1 (hr ▸ ho.1)⟩
  have hbits {row : Nat} (hp : past) (hrow : diffIndices t.rp o.rp = [row]) :
      (∃ r, bits r) ↔ popcount (t.rp.getD row 0 ^^^ o.rp.getD row 0) ≠ 1 := by
    obtain ⟨-, -, hr, -⟩ := hp
    exact exists_multiBit_iff ht.1 (hr ▸ ho.1) hrow
  simp only [v, past, ← confirmChecksum_iff ht] at *
  rcases locate_cases t o with ⟨hck, e⟩ | ⟨hck, rfl, e⟩ | ⟨hck, hne, hdims, e⟩ | ⟨hp, hc, e⟩ | ⟨hp, hc, e⟩ |
    ⟨col, hp, hc, ⟨hr, e⟩ | ⟨hr, e⟩ | ⟨row, hr, ⟨hpop, e⟩ | ⟨hpop, e⟩⟩⟩ <;> rw [e]
  · simp [rprStatus, rprResult, Code.bits, hck]
  · simp [rprStatus, rprResult, hck]
  · have hdims' : ¬ (t.rows = o.rows ∧ t.cols = o.cols) := not_and_or.mpr hdims
    simp [rprStatus, rprResult, Code.bits, hck, hne, hdims, hdims']
  · simp [rprStatus, rprResult, Code.bits, hp, hcounts hp, hc]
  · have hc' : (diffIndices t.cp o.cp).length ≠ 0 ∧ (diffIndices t.cp o.cp).length ≠ 1 := by omega
    simp [rprStatus, rprResult, Code.bits, hp, hcounts hp, hc, hc']
  · simp [rprStatus, rprResult, Code.bits, hp, hcounts hp, hc, hr]
  · have hr' : (diffIndices t.rp o.rp).length ≠ 0 ∧ (diffIndices t.rp o.rp).length ≠ 1 := by omega
    simp [rprStatus, rprResult, Code.bits, hp, hcounts hp, hc, hr, hr']
  · have hmulti : ∃ r, bits r := (hbits hp hr).mpr hpop
    simp [rprStatus, rprResult, Code.bits, hp, hcounts hp, hc, hr, hmulti]
  · have hone : ¬ ∃ r, bits r := fun h => (hbits hp hr).mp h hpop
    simp [rprStatus, rprResult, hp, hcounts hp, hc, hr, hone]

/-! ### The response -/

section
variable {t o : Header} {s : State}

/-- With a well-shaped trusted header within capacity `RPR` ends in a next state: an inconsistent one is refused, and a
consistent one is good. -/
theorem repairBuf_next_of_fits (ht : t.wellShaped) (hfits : t.fits s.cfg) : ∃ u, repairBuf t o s = .next u := by
  cases hck : confirmChecksum t with
  | false => exact ⟨_, repairBuf_of_checksum_wrong s hck o⟩
  | true => exact repairBuf_next ⟨ht, (confirmChecksum_iff ht).mp hck, hfits⟩

theorem repairBuf_response {u : State} (hu : repairBuf t o s = .next u) :
    u.status = rprStatus (locate t o) ∧ u.result = rprResult (locate t o) := by
  unfold repairBuf at hu
  cases hl : locate t o with
  | fail | noop => rw [hl] at hu; cases hu; exact ⟨rfl, rfl⟩
  | flip col row k =>
    simp only [hl, flipBit] at hu
    split_ifs at hu
    cases hu
    exact ⟨rfl, rfl⟩

end

/-- Only a flip of `RPR` changes more than the response, and it answers 1 (44_repair.md R180). -/
theorem sameButResponse_of_rpr {s t : State} {ha hb : SlotField} (ht : exec (.rpr ha hb) s = .next t)
    (hresult : t.result = 0) : sameButResponse s t := by
  cases exec_effect _ s t ht with
  | failed c _ h => exact h ▸ sameButResponse_finish s c 0
  | answered v _ _ h => exact h ▸ sameButResponse_finish s .ok v
  | loaded _ _ _ _ _ hi => simp at hi
  | serialized _ _ _ hi => cases hi
  | flipped => subst t; cases hresult

/-! ### The obligation -/

/-- Settles O28: the status and RESULT are those of the locator's verdict, and the verdict follows the counts. -/
theorem rprFailureCodes : Obligations.RprFailureCodes := by
  intro s ha hb a b hna hnb hsa hsb hfits
  obtain ⟨t, hrepair⟩ := repairBuf_next_of_fits (o := s.header b) hsa hfits
  have ht : exec (.rpr ha hb) s = .next t := (exec_rpr hna hnb s).trans hrepair
  obtain ⟨hstatus, hresult⟩ := repairBuf_response hrepair
  obtain ⟨h20, h21, h22, h23, h24, h25, h26, hnoop⟩ := locate_table hsa hsb
  rw [← hstatus] at h20 h21 h22 h23 h24 h25 h26 hnoop
  rw [← hresult] at hnoop
  exact ⟨t, ht, h20, h21, h22, h23, h24, h25, h26, hnoop, fun hst => (failure_of_exec ht hst).1,
    sameButResponse_of_rpr ht⟩

end Sys2Proof.Proofs
end

section
/-! PROOF. The round trips of the decoder and the encoder, and sample words (30_encoding.md R71 to R75). -/

open Sys2Proof Sys2Proof.Machine

namespace Sys2Proof.Proofs

/-- Settles O1: each part of the decoder reads back the fields the encoder laid out. -/
theorem decodeEncodeRoundTrip : Obligations.DecodeEncodeRoundTrip := fun _ hi => decode_encode hi

/-- Settles O2: a decoded command is read off the fields of the word, and a word is the format of its fields. -/
theorem encodeDecodeRoundTrip : Obligations.EncodeDecodeRoundTrip := by
  intro w i hdecode
  obtain ⟨hword, hi⟩ := decode_ok_iff.mp hdecode
  exact ⟨hword.symm, hi⟩

/-- Settles O5: eleven closed words, evaluated. -/
theorem sampleWordsDecode : Obligations.SampleWordsDecode := by
  unfold Obligations.SampleWordsDecode
  decide

/-- Settles O6: one closed text, evaluated. -/
theorem assemblerExamples : Obligations.AssemblerExamples := by
  unfold Obligations.AssemblerExamples
  decide

end Sys2Proof.Proofs
end

section
/-! PROOF. The host's step: commands, reads of the response, BUSY and reset (10_state.md R30, R32, 20_memory.md R52,
70_reset_and_hazards.md). -/

open Sys2Proof Sys2Proof.Machine Sys2Proof.Claims

namespace Sys2Proof.Proofs

/-! ### The step on a command word -/

theorem runCommand_of_ok {w : CmdWord} {i : Instr} (h : decode w = .ok i) (s : State) :
    runCommand w s = exec i s.accept := by rw [runCommand, h]

/-- An idle block takes the word at the head of its port and runs it (20_memory.md R52). -/
theorem step_command {s : State} {w : CmdWord} {rest : List HostMove} (hidle : s.busy = false)
    (hport : s.port = .command w :: rest) : step s = runCommand w { s with port := rest } :=
  (step_move s _ rest hport).trans (whenIdle_of_idle (s := { s with port := rest }) hidle _)

/-- Settles O7: `accept` is the state with BUSY high. -/
theorem stepRunsDecodedCommand : Obligations.StepRunsDecodedCommand :=
  fun _ _ _ _ hidle hport hdecode => (step_command hidle hport).trans (runCommand_of_ok hdecode _)

/-- The table's row is read by the decoder from its word (30_encoding.md R70). -/
theorem decode_of_decodeTableWord {nbits w : Nat} {i : Instr} (h : decodeTableWord nbits w = some i) :
    decode (tableWord nbits w) = .ok i := by
  unfold decodeTableWord at h
  split_ifs at h
  cases hd : decode (tableWord nbits w) with
  | ok j => rw [hd] at h; cases h; rfl
  | error e => rw [hd] at h; cases h

/-- Settles O8: `withFetchWord` leaves the block idle with the word at the head of the port. -/
theorem fetchedWordRuns : Obligations.FetchedWordRuns :=
  fun s nbits w _ h =>
    (step_command (s := s.withFetchWord nbits w) rfl rfl).trans (runCommand_of_ok (decode_of_decodeTableWord h) _)

/-- Settles O9: with an empty port a step takes no move. -/
theorem nothingIssuedNothingChanges : Obligations.NothingIssuedNothingChanges := step_idle

/-! ### The reads of the response -/

/-- Settles O13: each read is a `reply` on the idle block without the move. -/
theorem hostReadsResponse : Obligations.HostReadsResponse := by
  intro s rest hidle
  refine ⟨fun hport => ?_, fun hport => ?_, fun hport => ?_⟩ <;> rw [step_move s _ rest hport] <;>
    exact whenIdle_of_idle hidle _

/-! ### BUSY and reset -/

theorem whenIdle_of_busy {s : State} (hbusy : s.busy = true) (o : Host.Outcome State Fault Refusal) :
    whenIdle s o = .refused .hostWhileBusy := if_pos hbusy

/-- Every host move but the reset event waits for an idle block (70_reset_and_hazards.md R240). -/
theorem hostMove_whenIdle {m : HostMove} (hm : m ≠ .reset) (s : State) :
    ∃ o, hostMove m s = whenIdle s o := by
  cases m with
  | reset => exact absurd rfl hm
  | _ => exact ⟨_, rfl⟩

/-- Settles O15: a busy block refuses every move that waits for an idle one. -/
theorem noMoveWhileBusy : Obligations.NoMoveWhileBusy := by
  intro s m rest hbusy hport hm
  obtain ⟨o, ho⟩ := hostMove_whenIdle hm { s with port := rest }
  rw [step_move s m rest hport, ho]
  exact whenIdle_of_busy hbusy o

/-- Settles O16: the fields of the reset state; an unwritten byte reads as the free value of its address. -/
theorem resetValues : Obligations.ResetValues :=
  ⟨State.reset_header, fun _ => rfl, fun _ => rfl, rfl, rfl, rfl, rfl⟩

theorem afterReset_header (s : State) (g : Slot) : s.afterReset.header g = Header.empty := by cases g <;> rfl

/-- Both reset moves answer the reset state, the second from an idle block (70_reset_and_hazards.md R230, R232). -/
theorem step_reset {s : State} {w : CmdWord} {rest : List HostMove}
    (hport : s.port = .reset :: rest ∨ (s.busy = false ∧ s.port = .resetDuring w :: rest)) :
    step s = .next ({ s with port := rest } : State).afterReset := by
  obtain hport | ⟨hidle, hport⟩ := hport <;> rw [step_move s _ rest hport]
  · rfl
  · exact whenIdle_of_idle hidle _

/-- Settles O17: the fields of `afterReset`; both memories are empty, so a byte reads as its new free value. -/
theorem resetEventResets : Obligations.ResetEventResets := fun _ _ _ hport =>
  ⟨_, step_reset hport, afterReset_header _, fun _ => rfl, fun _ => rfl, rfl, rfl, rfl, rfl, rfl, rfl⟩

end Sys2Proof.Proofs
end

section
/-! PROOF. What a command can change, and with which response it ends (10_state.md, 60_exceptions.md): each claim reads
off the five forms of a next state. -/

open Sys2Proof Sys2Proof.Machine Sys2Proof.Claims

namespace Sys2Proof.Proofs

/-! ### The codes -/

theorem bits_isStatusCode (c : Code) : isStatusCode c.bits := by cases c <;> decide

/-! ### The frame of a loaded slot and of a written message -/

section
variable (s : State)

/-- A slot loaded at the end of a command: that slot, the response, and nothing else (10_state.md R24). -/
theorem setHeader_done_frame (a : Slot) (h : Header) (v : Word) :
    ((s.setHeader a h).done v).header a = h ∧ responds ((s.setHeader a h).done v) 0x00 v ∧
      sameOtherSlots a s ((s.setHeader a h).done v) ∧ sameBuf s ((s.setHeader a h).done v) ∧
      sameMsg s ((s.setHeader a h).done v) ∧ ((s.setHeader a h).done v).loc = s.loc ∧
      sameRest s ((s.setHeader a h).done v) := by
  refine ⟨by simp, ⟨rfl, rfl, rfl⟩, fun g hg => ?_, fun p => by simp, fun p => by simp, by simp, ?_⟩
  · rw [State.done_header, State.setHeader_header_other _ _ _ _ hg]
  · exact ⟨by simp, by simp, by simp, by simp⟩

/-- A message written at the end of a command leaves everything but MSG and the response. -/
theorem writeMsg_done_frame (bytes : List Byte) (v : Word) :
    sameSlots s ((s.writeMsg 0 bytes).done v) ∧ sameBuf s ((s.writeMsg 0 bytes).done v) ∧
      ((s.writeMsg 0 bytes).done v).loc = s.loc ∧ sameRest s ((s.writeMsg 0 bytes).done v) :=
  ⟨fun g => by simp, fun _ => rfl, rfl, rfl, rfl, rfl, rfl⟩

/-- A message written from address 0: its bytes, and beyond it those before. -/
theorem writeMsg_done_msgByte (bytes : List Byte) (v : Word) (p : Nat) :
    ((s.writeMsg 0 bytes).done v).msgByte p = if p < bytes.length then bytes.getD p 0 else s.msgByte p := by
  rw [State.done_msgByte, State.writeMsg_msgByte]
  simp

end

/-! ### The claims about every command -/

section
variable {i : Instr} {s t : State} (ht : exec i s = .next t)
include ht

/-- The response of a command carries the number of a code, that of `OK` or of the failure. -/
theorem status_of_exec : isStatusCode t.status := by
  cases exec_effect i s t ht with
  | failed c => subst t; exact bits_isStatusCode c
  | answered | loaded | serialized | flipped => subst t; exact bits_isStatusCode .ok

/-- No command changes the parameters or the model's own fields. -/
theorem sameRest_of_exec : sameRest s t := by
  cases exec_effect i s t ht with
  | failed | answered => subst t; exact ⟨rfl, rfl, rfl, rfl⟩
  | loaded _ a h v _ _ ht => obtain ⟨-, -, -, -, -, -, hrest⟩ := setHeader_done_frame s a h v; exact ht ▸ hrest
  | serialized => subst t; exact ⟨rfl, rfl, rfl, rfl⟩
  | flipped => subst t; exact ⟨rfl, rfl, rfl, rfl⟩

end

/-- Settles O36: a failure is a `raise`. -/
theorem failureChangesNothing : Obligations.FailureChangesNothing := fun _ _ _ ht hst => failure_of_exec ht hst

/-- Settles O37: every form of a next state ends in `finish`, which writes a code and lowers BUSY. -/
theorem commandsEndWithAStatusCode : Obligations.CommandsEndWithAStatusCode :=
  fun _ _ _ ht => ⟨busy_of_exec ht, status_of_exec ht⟩

/-- Settles O38: of the five forms only the flip sets LOC. -/
theorem onlyAFlipChangesLoc : Obligations.OnlyAFlipChangesLoc := by
  intro i s t ht hloc
  cases exec_effect i s t ht with
  | failed | answered | serialized => subst t; exact absurd rfl hloc
  | loaded => subst t; exact absurd (by simp) hloc
  | flipped ha hb _ _ _ _ _ _ _ hi => subst t; exact ⟨⟨ha, hb, hi⟩, rfl, rfl⟩

/-- Settles O39: of the five forms only the load sets a slot, and it sets its own. -/
theorem onlyLoadsChangeASlot : Obligations.OnlyLoadsChangeASlot := by
  intro i s t g ht hslot
  cases exec_effect i s t ht with
  | failed | answered | serialized | flipped => subst t; exact absurd (by simp) hslot
  | loaded ha a h v hs hi =>
    subst t
    obtain ⟨-, -, hother, -⟩ := setHeader_done_frame s a h v
    obtain rfl : g = a := by_contra fun hg => hslot (hother g hg)
    refine ⟨rfl, ha, (slotOf_eq_some_iff ha g).mp hs, ?_⟩
    obtain ⟨hi, -⟩ | ⟨rows, cols, hi, -⟩ | ⟨hi, -⟩ := hi
    · exact .inl hi
    · exact .inr (.inl ⟨rows, cols, hi⟩)
    · exact .inr (.inr hi)

/-- Settles O40: of the five forms only the message writes MSG and only the flip writes BUF. -/
theorem whoWritesTheMemories : Obligations.WhoWritesTheMemories := by
  intro i s t ht
  cases exec_effect i s t ht with
  | failed | answered => subst t; exact ⟨fun h => absurd (fun _ => rfl) h, fun h => absurd (fun _ => rfl) h⟩
  | loaded _ a h v =>
    subst t
    obtain ⟨-, -, -, hbuf, hmsg, -⟩ := setHeader_done_frame s a h v
    exact ⟨fun h => absurd hmsg h, fun h => absurd hbuf h⟩
  | serialized ha a hs hi =>
    subst t
    exact ⟨fun _ => ⟨ha, a, hi, (slotOf_eq_some_iff ha a).mp hs, fun _ => rfl, writeMsg_done_msgByte s _ _⟩,
      fun h => absurd (fun _ => rfl) h⟩
  | flipped ha hb a b col row k hsa hsb hi hl =>
    subst t
    refine ⟨fun h => absurd (fun _ => rfl) h, fun _ => ⟨ha, hb, a, b, col, row, k, hi, (slotOf_eq_some_iff ha a).mp hsa,
      (slotOf_eq_some_iff hb b).mp hsb, fun _ => rfl, hl, fun p => ?_⟩⟩
    rw [flip_bufByte]
    split_ifs with hp
    · rw [hp]
    · rfl

end Sys2Proof.Proofs
end

section
/-! PROOF. The invariant of the block: it holds at reset and every step keeps it (10_state.md R35, 60_exceptions.md
R222). -/

open Sys2Proof Sys2Proof.Machine Sys2Proof.Claims

namespace Sys2Proof.Proofs

/-! ### The invariant without the response -/

/-- A canonical memory inside a space of `n` bytes. -/
structure MemoryIn (m : Memory) (n : Nat) : Prop where
  wf : Memory.wf m = true
  below : Memory.below m n = true

/-- The part of the invariant that holds during a command too: all of it but STATUS and BUSY. -/
structure GoodData (s : State) : Prop where
  range : s.cfg.inRange
  slots : ∀ g, (s.header g).good s.cfg
  buf : MemoryIn s.buf s.cfg.bufBytes
  msg : MemoryIn s.msg s.cfg.msgBytes

theorem inv_iff {s : State} : s.Inv ↔ GoodData s ∧ isStatusCode s.status ∧ s.busy = false := by
  constructor
  · intro hs
    have hslots := header_good_of_inv hs
    obtain ⟨hrange, -, -, ⟨hbuf, hbuf'⟩, ⟨hmsg, hmsg'⟩, hstatus, hbusy⟩ := hs
    exact ⟨⟨hrange, hslots, ⟨hbuf, hbuf'⟩, ⟨hmsg, hmsg'⟩⟩, hstatus, hbusy⟩
  · rintro ⟨⟨hrange, hslots, ⟨hbuf, hbuf'⟩, ⟨hmsg, hmsg'⟩⟩, hstatus, hbusy⟩
    exact ⟨hrange, hslots .h0, hslots .h1, ⟨hbuf, hbuf'⟩, ⟨hmsg, hmsg'⟩, hstatus, hbusy⟩

theorem MemoryIn.nil (n : Nat) : MemoryIn [] n := ⟨rfl, rfl⟩

theorem MemoryIn.put {m : Memory} {n a : Nat} (h : MemoryIn m n) (ha : a < n) (v : Byte) : MemoryIn (m.put a v) n :=
  ⟨Memory.wf_put m a v h.wf, Memory.below_put m a v n h.below ha⟩

theorem MemoryIn.putAll {m : Memory} {n : Nat} {bytes : List Byte} (h : MemoryIn m n) (hlen : bytes.length ≤ n) :
    MemoryIn (m.putAll 0 bytes) n :=
  ⟨Memory.wf_putAll bytes m 0 h.wf, Memory.below_putAll bytes m 0 n h.below (by omega)⟩

/-- The empty placeholder is good under every choice of parameters (40_parity_generator.md R106). -/
theorem empty_good (cfg : Config) : Header.empty.good cfg := ⟨⟨rfl, rfl⟩, rfl, Nat.zero_le _, Nat.zero_le _⟩

/-- A condition of `ERR_BAD_DIM` is what `PGEN` tests (40_parity_generator.md R108). -/
theorem badDims_iff {cfg : Config} {rows cols : Half} :
    badDims cfg rows cols = true ↔ rows = 0 ∨ cols = 0 ∨ cfg.maxRows < rows.toNat ∨ cfg.maxCols < cols.toNat := by
  simp [badDims, or_assoc]

/-- A header derived with dimensions that pass the test is good. -/
theorem derive_good {cfg : Config} {rows cols : Half} (hdims : badDims cfg rows cols = false) (buf : List Byte) :
    (derive buf rows cols).good cfg := by
  have hdims := badDims_iff.not.mp (Bool.eq_false_iff.mp hdims)
  exact ⟨derive_wellShaped _ _ _, derive_consistent _ _ _, by rw [derive_rows]; omega, by rw [derive_cols]; omega⟩

/-! ### The operations on the state keep it -/

namespace GoodData

variable {s : State}

/-- The response, LOC, BUSY and the host's side are no part of it. -/
theorem congr {t : State} (h : GoodData s) (hcfg : t.cfg = s.cfg) (hslots : sameSlots s t) (hbuf : t.buf = s.buf)
    (hmsg : t.msg = s.msg) : GoodData t := by
  refine ⟨?_, fun g => ?_, ?_, ?_⟩ <;> rw [hcfg]
  · exact h.range
  · rw [hslots g]; exact h.slots g
  · rw [hbuf]; exact h.buf
  · rw [hmsg]; exact h.msg

theorem withPort (h : GoodData s) (rest : List HostMove) : GoodData { s with port := rest } :=
  h.congr rfl (header_withPort s rest) rfl rfl

theorem accept (h : GoodData s) : GoodData s.accept := h.congr rfl s.accept_header rfl rfl

theorem reply (h : GoodData s) (v : Answer) : GoodData (s.reply v) := h.congr rfl (s.reply_header v) rfl rfl

theorem finish (h : GoodData s) (c : Code) (v : Word) : GoodData (s.finish c v) :=
  h.congr rfl (s.finish_header c v) rfl rfl

theorem setLoc (h : GoodData s) (v : LocWord) : GoodData (s.setLoc v) := h.congr rfl (s.setLoc_header v) rfl rfl

theorem setBuf (h : GoodData s) {a : Nat} (ha : a < s.cfg.bufBytes) (v : Byte) : GoodData (s.setBuf a v) :=
  { h with slots := fun g => by rw [State.setBuf_header]; exact h.slots g, buf := h.buf.put ha v }

theorem setMsg (h : GoodData s) {a : Nat} (ha : a < s.cfg.msgBytes) (v : Byte) : GoodData (s.setMsg a v) :=
  { h with slots := fun g => by rw [State.setMsg_header]; exact h.slots g, msg := h.msg.put ha v }

theorem writeMsg (h : GoodData s) {bytes : List Byte} (hlen : bytes.length ≤ s.cfg.msgBytes) :
    GoodData (s.writeMsg 0 bytes) :=
  { h with slots := fun g => by rw [State.writeMsg_header]; exact h.slots g, msg := h.msg.putAll hlen }

theorem setHeader (h : GoodData s) (a : Slot) {v : Header} (hv : v.good s.cfg) : GoodData (s.setHeader a v) := by
  refine ⟨?_, fun g => ?_, ?_, ?_⟩ <;> rw [State.setHeader_cfg]
  · exact h.range
  · by_cases hg : g = a
    · rw [hg, State.setHeader_header_same]; exact hv
    · rw [State.setHeader_header_other _ _ _ _ hg]; exact h.slots g
  · rw [State.setHeader_buf]; exact h.buf
  · rw [State.setHeader_msg]; exact h.msg

theorem afterReset (h : GoodData s) : GoodData s.afterReset :=
  ⟨h.range, fun g => by rw [afterReset_header]; exact empty_good _, .nil _, .nil _⟩

/-- Every command keeps it: a loaded header is empty, derived or accepted, and a write stays inside its memory. -/
theorem of_exec {i : Instr} {t : State} (h : GoodData s) (ht : exec i s = .next t) : GoodData t := by
  cases exec_effect i s t ht with
  | failed c _ ht => exact ht ▸ h.finish c 0
  | answered v _ _ ht => exact ht ▸ h.finish .ok v
  | loaded _ a v r _ hi ht =>
    have hv : v.good s.cfg := by
      obtain ⟨-, rfl⟩ | ⟨rows, cols, -, hdims, rfl⟩ | ⟨-, hok⟩ := hi
      · exact empty_good _
      · exact derive_good hdims _
      · exact deserializeCheck_ok_good _ _ _ hok
    exact ht ▸ (h.setHeader a hv).finish .ok r
  | serialized _ a _ _ hm ht => exact ht ▸ (h.writeMsg hm).finish .ok _
  | flipped _ _ _ _ _ _ _ _ _ _ _ hm ht => exact ht ▸ ((h.setBuf hm _).setLoc _).finish .ok 1

end GoodData

/-! ### The obligations -/

/-- Settles O33: both slots are empty, both memories hold no written byte, and STATUS is `OK`. -/
theorem invAtReset : Obligations.InvAtReset :=
  inv_iff.mpr ⟨⟨by decide, fun g => by rw [State.reset_header]; exact empty_good _, .nil _, .nil _⟩, by decide, rfl⟩

/-- A host move keeps the invariant: a command writes a listed code and lowers BUSY, and the other moves leave STATUS
and BUSY or reset them. -/
theorem inv_of_hostMove {m : HostMove} {s t : State} (hs : s.Inv) (ht : hostMove m s = .next t) : t.Inv := by
  obtain ⟨hgood, hstatus, hbusy⟩ := inv_iff.mp hs
  rw [inv_iff]
  cases hostMove_effect m s t ht with
  | command w i _ _ _ ht => exact ⟨hgood.accept.of_exec ht, status_of_exec ht, busy_of_exec ht⟩
  | illegal w e _ _ _ ht => exact ht ▸ ⟨hgood.accept.finish _ _, bits_isStatusCode .errIllegalCmd, rfl⟩
  | wroteBuf a v _ _ ha ht => exact ht ▸ ⟨hgood.setBuf ha v, hstatus, hbusy⟩
  | wroteMsg a v _ _ ha ht => exact ht ▸ ⟨hgood.setMsg ha v, hstatus, hbusy⟩
  | replied v _ ht => exact ht ▸ ⟨hgood.reply v, hstatus, hbusy⟩
  | reset ht => exact ht ▸ ⟨hgood.afterReset, bits_isStatusCode .ok, rfl⟩

/-- A step takes a move off the port, which the invariant does not read, or changes nothing. -/
theorem step_cases {s t : State} (ht : step s = .next t) :
    t = s ∨ ∃ m rest, hostMove m { s with port := rest } = .next t := by
  cases hport : s.port with
  | nil => rw [step_idle s hport] at ht; cases ht; exact .inl rfl
  | cons m rest => rw [step_move s m rest hport] at ht; exact .inr ⟨m, rest, ht⟩

/-- Settles O34: every command keeps the data good and every host move keeps the invariant. -/
theorem stepKeepsInv : Obligations.StepKeepsInv := by
  intro s t hs ht
  obtain rfl | ⟨m, rest, ht⟩ := step_cases ht
  · exact hs
  · obtain ⟨hgood, hresponse⟩ := inv_iff.mp hs
    exact inv_of_hostMove (inv_iff.mpr ⟨hgood.withPort rest, hresponse⟩) ht

/-- Settles O35: with good slots every command ends in a next state, and no command touches the port. -/
theorem everyWordCompletes : Obligations.EveryWordCompletes := by
  refine fun s hs => ⟨step_not_faults hs, fun w rest hport => ?_⟩
  obtain ⟨hgood, -, hidle⟩ := inv_iff.mp hs
  rw [step_command hidle hport]
  cases hdecode : decode w with
  | error e => exact ⟨_, runCommand_of_error hdecode _, rfl⟩
  | ok i =>
    obtain ⟨t, ht⟩ := exec_next (hgood.withPort rest).accept.slots i
    obtain ⟨-, hport, -⟩ := sameRest_of_exec ht
    exact ⟨t, (runCommand_of_ok hdecode _).trans ht, hport⟩

/-- A host move keeps the parameters, the reset event included (00_scope.md R5). -/
theorem cfg_of_hostMove {m : HostMove} {s t : State} (ht : hostMove m s = .next t) : t.cfg = s.cfg := by
  cases hostMove_effect m s t ht with
  | command w i _ _ _ ht => exact (effect_cfg (exec_effect i s.accept t ht)).trans s.accept_cfg
  | illegal | wroteBuf | wroteMsg | replied | reset => subst t; rfl

/-- Settles O41: a step takes a host move or changes nothing. -/
theorem parametersAreFixed : Obligations.ParametersAreFixed := by
  intro s t ht
  obtain rfl | ⟨m, rest, ht⟩ := step_cases ht
  · rfl
  · exact cfg_of_hostMove (s := { s with port := rest }) ht

end Sys2Proof.Proofs
end

section
/-! PROOF. What each command does with the slots its operands name (40_parity_generator.md to 44_repair.md). -/

open Sys2Proof Sys2Proof.Machine Sys2Proof.Claims

namespace Sys2Proof.Proofs

/-! ### The commands on named slots -/

/-- A slot field that names a slot runs the body on it (30_encoding.md R71). -/
theorem onSlot_of_namesSlot {ha : SlotField} {a : Slot} (hna : namesSlot ha a) (s : State)
    (body : Slot → Host.Outcome State Fault Refusal) : onSlot ha s body = body a :=
  onSlot_some ha a s body ((slotOf_eq_some_iff ha a).mpr hna)

section
variable {ha : SlotField} {a : Slot} (hna : namesSlot ha a) (s : State)
include hna

theorem exec_hclr : exec (.hclr ha) s = .next ((s.setHeader a Header.empty).done 0) := onSlot_of_namesSlot hna s _

theorem exec_csum : exec (.csum ha) s = .next (s.done (calcChecksum (s.header a))) := onSlot_of_namesSlot hna s _

theorem exec_cchk : exec (.cchk ha) s = .next (s.done (checkResult (confirmChecksum (s.header a)))) :=
  onSlot_of_namesSlot hna s _

theorem exec_hser : exec (.hser ha) s = sendHeader (s.header a) s := onSlot_of_namesSlot hna s _

theorem exec_pgen_of_badDims {rows cols : Half} (hdims : badDims s.cfg rows cols = true) :
    exec (.pgen ha rows cols) s = .next (s.raise .errBadDim) := by
  refine (onSlot_of_namesSlot hna s _).trans ?_
  rw [generate, if_pos hdims]

/-- `PGEN` with dimensions that pass the test loads the derived header and answers its checksum
(40_parity_generator.md R108). -/
theorem exec_pgen {rows cols : Half} (hdims : badDims s.cfg rows cols = false) :
    ∃ t, exec (.pgen ha rows cols) s = .next t ∧ t.header a = derive (s.buffer rows cols) rows cols ∧
      responds t 0x00 (derive (s.buffer rows cols) rows cols).checksum ∧ sameOtherSlots a s t ∧ sameBuf s t ∧
      sameMsg s t ∧ t.loc = s.loc ∧ sameRest s t := by
  refine ⟨_, (onSlot_of_namesSlot hna s _).trans ?_, setHeader_done_frame s a _ _⟩
  rw [generate, hdims]
  rfl

end

/-! ### HCLR and PGEN -/

/-- Settles O18: `HCLR` loads the empty placeholder. -/
theorem hclrClearsSlot : Obligations.HclrClearsSlot := fun s _ a hna =>
  ⟨_, exec_hclr hna s, setHeader_done_frame s a Header.empty 0⟩

/-- The closed form reads only the bytes of the buffer. -/
theorem isDerived_congr {h : Header} {f g : Nat → Byte} {rows cols : Half}
    (hfg : ∀ p, p < rows.toNat * cols.toNat → f p = g p) (hf : isDerived h f rows cols) : isDerived h g rows cols := by
  obtain ⟨hrows, hcols, hrpLen, hcpLen, hrp, hcp, hchecksum⟩ := hf
  refine ⟨hrows, hcols, hrpLen, hcpLen, fun r hr => (hrp r hr).trans ?_, fun c hc => (hcp c hc).trans ?_, hchecksum⟩
  · refine congrArg xorAll (List.map_congr_left fun c hc => hfg _ ?_)
    exact position_lt _ _ c r (List.mem_range.mp hc) hr
  · refine congrArg xorAll (List.map_congr_left fun r hr => congrArg parity8 (hfg _ ?_))
    exact position_lt _ _ c r hc (List.mem_range.mp hr)

/-- The header `PGEN` derives is the closed form over BUF (40_parity_generator.md R104, R108). -/
theorem isDerived_derive_buffer (s : State) (rows cols : Half) :
    isDerived (derive (s.buffer rows cols) rows cols) s.bufByte rows cols := by
  obtain ⟨hderived, -⟩ := deriveClosedForm (s.buffer rows cols) rows cols (length_buffer s rows cols)
  exact isDerived_congr (getD_buffer s rows cols) hderived

/-- Dimensions from 1 to the capacity pass the test (40_parity_generator.md R108). -/
theorem badDims_of_fits {cfg : Config} {rows cols : Half} (hrows : 1 ≤ rows.toNat) (hrows' : rows.toNat ≤ cfg.maxRows)
    (hcols : 1 ≤ cols.toNat) (hcols' : cols.toNat ≤ cfg.maxCols) : badDims cfg rows cols = false := by
  rw [Bool.eq_false_iff, Ne, badDims_iff]
  rintro (rfl | rfl | h | h)
  · exact absurd hrows (by decide)
  · exact absurd hcols (by decide)
  · omega
  · omega

/-- Settles O19: the dimensions pass the test, and the derived header is the closed form over BUF. -/
theorem pgenDerivesHeader : Obligations.PgenDerivesHeader := by
  intro s ha a rows cols hna hrows hrows' hcols hcols'
  obtain ⟨t, ht, hload, hframe⟩ := exec_pgen hna s (badDims_of_fits hrows hrows' hcols hcols')
  rw [← hload] at hframe
  exact ⟨t, ht, hload ▸ isDerived_derive_buffer s rows cols, hframe⟩

/-- Settles O20: the dimensions fail the test, and `raise` changes the response alone. -/
theorem pgenBadDimension : Obligations.PgenBadDimension := fun s _ _ _ _ hna hdims =>
  ⟨_, exec_pgen_of_badDims hna s (badDims_iff.mpr hdims), ⟨rfl, rfl, rfl⟩, sameButResponse_finish s _ _⟩

/-! ### CSUM, CCHK and HCMP -/

/-- The recomputed checksum is the true sum modulo 2^32 (41_checksum_compare.md R120). -/
theorem calcChecksum_eq_ofNat (h : Header) : calcChecksum h = BitVec.ofNat 32 (checksumNat h) :=
  checksumOf_eq_ofNat _ _ _ _

theorem checkResult_confirmChecksum (h : Header) :
    checkResult (confirmChecksum h) = if h.checksum = BitVec.ofNat 32 (checksumNat h) then 1 else 0 := by
  simp only [checkResult, confirmChecksum, beq_iff_eq, calcChecksum_eq_ofNat]

theorem compareResult_hdrEq (a b : Header) : compareResult (hdrEq a b) = if a = b then 1 else 2 := by
  simp only [compareResult, hdrEq_iff]

/-- Settles O21: each of the three is a `done` with its value. -/
theorem readOnlyCommandResults : Obligations.ReadOnlyCommandResults := by
  intro s ha hb a b hna hnb
  refine ⟨⟨_, exec_csum hna s, ⟨rfl, calcChecksum_eq_ofNat _, rfl⟩, ?_⟩,
    ⟨_, exec_cchk hna s, ⟨rfl, checkResult_confirmChecksum _, rfl⟩, ?_⟩,
    ⟨_, exec_hcmp hna hnb s, ⟨rfl, compareResult_hdrEq _ _, rfl⟩, ?_⟩⟩ <;> exact sameButResponse_finish s _ _

/-! ### HSER and HDES -/

/-- Settles O23: the message of a well-shaped slot within capacity fits, and it is written from address 0. -/
theorem hserWritesMessage : Obligations.HserWritesMessage := by
  intro s ha a hna ⟨hrp, hcp⟩ ⟨hrows, hcols⟩
  have hlen : (serialize s.cfg.wireEndian (s.header a)).length =
      20 + (s.header a).rows.toNat + (s.header a).cols.toNat := by rw [length_serialize, hrp, hcp]
  have hfits : (serialize s.cfg.wireEndian (s.header a)).length ≤ s.cfg.msgBytes := by
    rw [hlen, Config.msgBytes]; omega
  refine ⟨_, (exec_hser hna s).trans (if_pos hfits), rfl, messageLength_toNat _, rfl, fun p hp => ?_, fun p hp => ?_,
    writeMsg_done_frame s _ _⟩ <;> rw [writeMsg_done_msgByte, hlen]
  · exact if_pos hp
  · exact if_neg (Nat.not_lt.mpr hp)

/-- Memory that holds a sequence byte by byte reads as the sequence. -/
theorem memRead_eq_of_getD {m : Nat → Byte} {bytes : List Byte} {n : Nat} (hlen : bytes.length = n)
    (hm : ∀ p, p < n → m p = bytes.getD p 0) : memRead m 0 n = bytes := by
  subst hlen
  refine memRead_eq_of_getElem? m 0 bytes fun p hp => ?_
  rw [Nat.zero_add, hm p hp, List.getD_eq_getElem _ _ hp]

/-- Settles O24: the message of a good header is accepted as that header, which is loaded. -/
theorem hdesLoadsValidMessage : Obligations.HdesLoadsValidMessage := by
  intro s ha a h hna ⟨hrp, hcp⟩ hcons hfits hm
  have hlen : (serialize s.cfg.wireEndian h).length = 20 + h.rows.toNat + h.cols.toNat := by
    rw [length_serialize, hrp, hcp]
  have hok := deserializeCheck_eq_ok_iff.mpr ⟨⟨⟨hrp, hcp⟩, hcons, hfits⟩, memRead_eq_of_getD hlen hm⟩
  exact ⟨_, (exec_hdes hna s).trans (congrArg _ (deserializeInto_of_ok hok a)), setHeader_done_frame s a h 1⟩

/-- Settles O26: the 20 bytes before the sequences, and the sequences, lie below `20 + rows + cols`. -/
theorem deserializerReadsOnlyTheMessage : Obligations.DeserializerReadsOnlyTheMessage := by
  intro cfg m m' hagree
  rw [wireNat_two, wireNat_two] at hagree
  exact deserializeCheck_congr (fun p hp => hagree p (by omega)) fun _ _ => hagree

/-! ### RPR -/

/-- Sequences that differ at one index alone: the scan finds that index alone (44_repair.md R174). -/
theorem diffIndices_eq_singleton {xs ys : List Byte} {n i : Nat} (hx : xs.length = n) (hy : ys.length = n) (hi : i < n)
    (hdiff : ∀ j, j < n → (xs.getD j 0 ≠ ys.getD j 0 ↔ j = i)) : diffIndices xs ys = [i] := by
  rw [diffIndices_eq xs ys (hx.trans hy.symm), hx, ← List.perm_singleton]
  refine (List.perm_ext_iff_of_nodup (List.nodup_range.filter _) (List.nodup_singleton i)).mpr fun j => ?_
  rw [List.mem_filter, List.mem_range, bne_iff_ne, List.mem_singleton]
  exact ⟨fun ⟨hj, hne⟩ => (hdiff j hj).mp hne, fun hj => hj ▸ ⟨hi, (hdiff i hi).mpr rfl⟩⟩

/-- The syndrome of one flipped bit is located (44_repair.md R171). -/
theorem locate_of_oneBitSyndrome {t o : Header} {col row k : Nat} (h : oneBitSyndrome t o col row k) :
    locate t o = .flip col row k := by
  obtain ⟨ht, ho, hcons, hrows, hcols, hcol, hrow, hk, hcp, hrp, hmask⟩ := h
  have hck := (confirmChecksum_iff ht).mpr hcons
  obtain ⟨htrp, htcp⟩ := ht
  obtain ⟨horp, hocp⟩ := ho
  exact locate_eq_flip hck hrows hcols (diffIndices_eq_singleton htcp (hcols ▸ hocp) hcol hcp)
    (diffIndices_eq_singleton htrp (hrows ▸ horp) hrow hrp) hk hmask

/-- The state `RPR` leaves when it flips position `k` of byte `p`, located in column `col` and row `row` (44_repair.md
R180). -/
def flipped (s : State) (p col row k : Nat) : State :=
  ((s.setBuf p (s.bufByte p ^^^ msbmask k)).setLoc (locWord k col row)).done 1

section
variable (s : State) (p col row k : Nat)

theorem flipped_bufByte (q : Nat) :
    (flipped s p col row k).bufByte q = if q = p then s.bufByte p ^^^ msbmask k else s.bufByte q :=
  flip_bufByte s p _ _ _ q

/-- A flip changes BUF, LOC and the response alone. -/
theorem flipped_frame :
    responds (flipped s p col row k) 0x00 1 ∧ sameSlots s (flipped s p col row k) ∧
      sameMsg s (flipped s p col row k) ∧ sameRest s (flipped s p col row k) :=
  ⟨⟨rfl, rfl, rfl⟩, fun g => by simp [flipped], fun _ => rfl, rfl, rfl, rfl, rfl⟩

end

/-- A located flip at an address inside BUF is done there (44_repair.md R177, R180). -/
theorem exec_rpr_of_flip {ha hb : SlotField} {a b : Slot} {s : State} {col row k : Nat} (hna : namesSlot ha a)
    (hnb : namesSlot hb b) (hl : locate (s.header a) (s.header b) = .flip col row k)
    (hlt : col * (s.header a).rows.toNat + row < s.cfg.bufBytes) :
    exec (.rpr ha hb) s = .next (flipped s (col * (s.header a).rows.toNat + row) col row k) := by
  obtain ⟨-, -, -, -, -, -, hk, -⟩ := locate_flip _ _ col row k hl
  rw [exec_rpr hna hnb]
  simp only [repairBuf, hl, flipBit, flipAddr_eq _ _ _ hk, flipMask_eq _ hk, if_pos hlt, flipped]

/-- LOC as a number: the position, the column and the row side by side (10_state.md R29). -/
theorem locWord_toNat {k col row : Nat} (hk : k < 8) (hcol : col < 65536) (hrow : row < 65536) :
    (locWord k col row).toNat = k * 2 ^ 32 + col * 2 ^ 16 + row := by
  have hrow' := (BitVec.ofNat 16 row).isLt
  have hcol' := (BitVec.ofNat 16 col).isLt
  rw [locWord, BitVec.toNat_append, ← Nat.shiftLeft_add_eq_or_of_lt hrow', BitVec.toNat_append,
    ← Nat.shiftLeft_add_eq_or_of_lt hcol', Nat.shiftLeft_eq, Nat.shiftLeft_eq, BitVec.toNat_ofNat, BitVec.toNat_ofNat,
    BitVec.toNat_ofNat]
  omega

/-- Settles O27: the syndrome is located, its byte lies inside the buffer, and one bit of it is flipped. -/
theorem rprFlipsLocatedBit : Obligations.RprFlipsLocatedBit := by
  intro s ha hb a b col row k hna hnb hsyndrome ⟨hrows, hcols⟩
  have hl := locate_of_oneBitSyndrome hsyndrome
  obtain ⟨-, -, -, -, -, hcol, hrow, hk, -⟩ := hsyndrome
  have hlt := (position_lt _ _ col row hcol hrow).trans_le (dims_le_bufBytes hrows hcols)
  obtain ⟨hresponds, hframe⟩ := flipped_frame s (col * (s.header a).rows.toNat + row) col row k
  refine ⟨_, exec_rpr_of_flip hna hnb hl hlt, hresponds, ?_, fun p hp => ?_,
    locWord_toNat hk (hcol.trans (s.header a).cols.isLt) (hrow.trans (s.header a).rows.isLt), hframe⟩
  · rw [flipped_bufByte, if_pos rfl, msbmask]
  · rw [flipped_bufByte, if_neg hp]

/-- Settles O42: the invariant makes the trusted header consistent, and RPR's status 0x20 says it is not. -/
theorem checksumNeverBadInARun : Obligations.ChecksumNeverBadInARun := by
  intro s ha hb a b hs hna hnb
  obtain ⟨hshape, hcons, hfits⟩ := header_good_of_inv hs a
  obtain ⟨hshape', -⟩ := header_good_of_inv hs b
  have hck : confirmChecksum (s.header a) = true := (confirmChecksum_iff hshape).mpr hcons
  refine ⟨⟨_, exec_cchk hna s, rfl, by rw [State.done_result, hck, checkResult, if_pos rfl], rfl⟩, ?_⟩
  obtain ⟨t, ht⟩ := repairBuf_next_of_fits (o := s.header b) hshape hfits
  obtain ⟨hstatus, -⟩ := repairBuf_response ht
  obtain ⟨h20, -⟩ := locate_table hshape hshape'
  exact ⟨t, (exec_rpr hna hnb s).trans ht, fun hst => h20.mp (hstatus.symm.trans hst) hcons⟩

/-! ### Commands that do not run -/

/-- A slot field of 2 or more ends the command as an illegal word does. -/
theorem onSlot_of_illegal {ha : SlotField} (h : ha.legal = false) (s : State)
    (body : Slot → Host.Outcome State Fault Refusal) : onSlot ha s body = .next (s.raise .errIllegalCmd) :=
  onSlot_none ha s body ((slotOf_eq_none_iff ha).mpr h)

theorem onSlots_of_illegal {ha hb : SlotField} (h : (ha.legal && hb.legal) = false) (s : State)
    (body : Slot → Slot → Host.Outcome State Fault Refusal) :
    onSlots ha hb s body = .next (s.raise .errIllegalCmd) := by
  rcases onSlots_cases ha hb s body with ⟨a, b, hsa, hsb, -⟩ | ⟨-, e⟩
  · rw [Bool.and_eq_false_iff, ← slotOf_eq_none_iff, ← slotOf_eq_none_iff, hsa, hsb] at h
    simp at h
  · exact e

/-- A command that is not well formed has a field of 2 or more where it uses a slot (30_encoding.md R73 (c)). -/
theorem exec_of_not_wellFormed {i : Instr} (hi : i.wellFormed = false) (s : State) :
    exec i s = .next (s.raise .errIllegalCmd) := by
  cases i with
  | hclr | pgen | csum | cchk | hser | hdes => exact onSlot_of_illegal hi s _
  | hcmp | rpr => exact onSlots_of_illegal hi s _

/-- Settles O31: the command raises `ERR_ILLEGAL_CMD`. -/
theorem badSlotFieldEndsIllegal : Obligations.BadSlotFieldEndsIllegal := fun _ s hi =>
  ⟨_, exec_of_not_wellFormed hi s, ⟨rfl, rfl, rfl⟩, sameButResponse_finish s _ _⟩

/-- Settles O32: the bound each of the two commands tests before it writes. -/
theorem accessOutsideSpaceStops : Obligations.AccessOutsideSpaceStops := by
  intro s ha hb a b col row k hna hnb
  refine ⟨fun hlen => ⟨_, (exec_hser hna s).trans (if_neg ?_)⟩, fun hsyndrome hout => ?_⟩
  · rw [length_serialize, Nat.not_le]; exact hlen
  · have hl := locate_of_oneBitSyndrome hsyndrome
    obtain ⟨-, -, -, -, -, -, hk, -⟩ := locate_flip _ _ col row k hl
    refine ⟨.bufOutOfRange (col * (s.header a).rows.toNat + row), (exec_rpr hna hnb s).trans ?_⟩
    simp only [repairBuf, hl, flipBit, flipAddr_eq _ _ _ hk, if_neg (Nat.not_lt.mpr hout)]

end Sys2Proof.Proofs
end

section
/-! PROOF. The laws of `derive`: linearity, one flipped bit, the total parity and the range of the checksum
(40_parity_generator.md R110). -/

open Sys2Proof Sys2Proof.Machine Sys2Proof.Claims

namespace Sys2Proof.Proofs

/-! ### Linearity -/

theorem length_xorBytes {x y : List Byte} {n : Nat} (hx : x.length = n) (hy : y.length = n) :
    (xorBytes x y).length = n := by
  simp [xorBytes, hx, hy]

/-- Beyond the end, too: an element that is not there reads as 0. -/
theorem getD_xorBytes {x y : List Byte} (hlen : x.length = y.length) (p : Nat) :
    (xorBytes x y).getD p 0 = x.getD p 0 ^^^ y.getD p 0 := by
  by_cases hx : p < x.length
  · simp [xorBytes, hx, hlen ▸ hx]
  · have hx : x.length ≤ p := Nat.not_lt.mp hx
    have hy : y.length ≤ p := hlen.symm.trans_le hx
    rw [List.getD_eq_default _ _ hx, List.getD_eq_default _ _ hy,
      List.getD_eq_default _ _ ((length_xorBytes rfl hlen.symm).trans_le hx)]
    rfl

theorem xorAll_map_xor {ι : Type} (l : List ι) (f g : ι → Byte) :
    xorAll (l.map fun i => f i ^^^ g i) = xorAll (l.map f) ^^^ xorAll (l.map g) := by
  induction l with
  | nil => exact BitVec.xor_zero.symm
  | cons i l ih =>
    simp only [List.map_cons, xorAll_cons, ih]
    rw [BitVec.xor_assoc, BitVec.xor_assoc, ← BitVec.xor_assoc (g i), BitVec.xor_comm (g i), BitVec.xor_assoc]

section
variable {rows cols : Half} {x y : List Byte} (hx : x.length = rows.toNat * cols.toNat)
  (hy : y.length = rows.toNat * cols.toNat)
include hx hy

theorem derive_rp_xorBytes (r : Nat) :
    (derive (xorBytes x y) rows cols).rp.getD r 0 =
      (derive x rows cols).rp.getD r 0 ^^^ (derive y rows cols).rp.getD r 0 := by
  by_cases hr : r < rows.toNat
  · simp only [derive_rp_getD (length_xorBytes hx hy) hr, derive_rp_getD hx hr, derive_rp_getD hy hr,
      getD_xorBytes (hx.trans hy.symm), xorAll_map_xor]
  · have hbeyond : ∀ buf, (derive buf rows cols).rp.getD r 0 = 0 := fun buf =>
      List.getD_eq_default _ _ (by rw [length_derive_rp]; omega)
    simp only [hbeyond]
    rfl

theorem derive_cp_xorBytes (c : Nat) :
    (derive (xorBytes x y) rows cols).cp.getD c 0 =
      (derive x rows cols).cp.getD c 0 ^^^ (derive y rows cols).cp.getD c 0 := by
  by_cases hc : c < cols.toNat
  · simp only [derive_cp_getD (length_xorBytes hx hy) hc, derive_cp_getD hx hc, derive_cp_getD hy hc,
      getD_xorBytes (hx.trans hy.symm), parity8_xor, xorAll_map_xor]
  · have hbeyond : ∀ buf, (derive buf rows cols).cp.getD c 0 = 0 := fun buf =>
      List.getD_eq_default _ _ (by rw [length_derive_cp]; omega)
    simp only [hbeyond]
    rfl

end

/-- XOR of zeros into zeros. -/
theorem xorAt_replicate_zero (n i : Nat) : xorAt (List.replicate n 0) i 0 = List.replicate n 0 := by
  induction n generalizing i with
  | zero => rfl
  | succ n ih =>
    cases i with
    | zero => rfl
    | succ i => rw [List.replicate_succ, xorAt, ih i]

/-- The pass over zeros leaves the zero accumulators. -/
theorem derivePass_zero (rows i n r c : Nat) :
    derivePass rows i (List.replicate n 0) (List.replicate r 0) (List.replicate c 0) =
      (List.replicate r 0, List.replicate c 0) := by
  induction n generalizing i with
  | zero => rfl
  | succ n ih => rw [List.replicate_succ, derivePass, show parity8 0 = 0 from parity8_zero, xorAt_replicate_zero,
      xorAt_replicate_zero, ih]

theorem sum32_replicate_zero (n : Nat) : sum32 (List.replicate n 0) = 0 := by
  induction n with
  | zero => rfl
  | succ n ih => rw [List.replicate_succ, sum32, ih]; rfl

theorem checksumOf_replicate_zero (rows cols : Half) (r c : Nat) :
    checksumOf rows cols (List.replicate r 0) (List.replicate c 0) = rows.setWidth 32 + cols.setWidth 32 := by
  rw [checksumOf, sum32_replicate_zero, sum32_replicate_zero]
  exact (BitVec.add_zero _).trans (BitVec.add_zero _)

/-- Settles O46: XOR passes through the closed form element by element, and the pass over zeros does nothing. -/
theorem deriveIsLinear : Obligations.DeriveIsLinear := by
  refine fun rows cols x y hx hy => ⟨derive_rp_xorBytes hx hy, derive_cp_xorBytes hx hy, ?_⟩
  simp only [derive, derivePass_zero, checksumOf_replicate_zero]

/-! ### One flipped bit -/

/-- A changed element exchanges its value in the sum. -/
theorem byteSum_xorAt {bytes : List Byte} {i : Nat} (hi : i < bytes.length) (v : Byte) :
    byteSum (xorAt bytes i v) + (bytes.getD i 0).toNat = byteSum bytes + (bytes.getD i 0 ^^^ v).toNat := by
  induction bytes generalizing i with
  | nil => simp at hi
  | cons b bytes ih =>
    cases i with
    | zero => simp [xorAt, byteSum]; omega
    | succ i =>
      have := ih (Nat.lt_of_succ_lt_succ hi)
      simp only [xorAt, byteSum, List.map_cons, List.sum_cons, List.getD_cons_succ] at this ⊢
      omega

/-- The mask of position `k` is odd for the least significant bit alone. -/
theorem msbmask_toNat_mod_two {k : Nat} (hk : k < 8) : (msbmask k).toNat % 2 = if k = 7 then 1 else 0 := by
  revert k; decide

/-- Flipping bit 0 of a byte takes 1 away when it is set and adds 1 when it is not. -/
theorem xor_one_toNat (b : Byte) : (b ^^^ 1).toNat + 2 * (b.toNat % 2) = b.toNat + 1 := by
  revert b; decide

/-- Flipping position `k` of one byte and bit 0 of another keeps their sum exactly when `k` is bit 0 too and the bytes
differ in it: otherwise the sum changes its parity or changes by 2. -/
theorem flipped_sum_eq_iff {k : Nat} (hk : k < 8) (a b : Byte) :
    (a ^^^ msbmask k).toNat + (b ^^^ 1).toNat = a.toNat + b.toNat ↔ k = 7 ∧ a.toNat % 2 ≠ b.toNat % 2 := by
  have hb := xor_one_toNat b
  by_cases h7 : k = 7
  · subst h7
    have ha : (a ^^^ msbmask 7).toNat + 2 * (a.toNat % 2) = a.toNat + 1 := xor_one_toNat a
    omega
  · have ha : (a ^^^ msbmask k).toNat % 2 = (a.toNat + (msbmask k).toNat) % 2 := by
      rw [BitVec.toNat_xor, Nat.xor_mod_two_eq]
    have hmask := msbmask_toNat_mod_two hk
    rw [if_neg h7] at hmask
    omega

/-- Settles O47: the changed byte changes its row and its column element, and the checksum changes by the two
differences together. -/
theorem oneFlippedBitInDerive : Obligations.OneFlippedBitInDerive := by
  intro rows cols x c r k hlen hc hr hk z
  have hz : z = xorAt x (c * rows.toNat + r) (msbmask k) := (xorAt_eq_set _ _ _).symm
  obtain ⟨hmod, hdiv⟩ := position_row_col rows.toNat c r hr
  obtain ⟨hrp, hcp⟩ := derive_xorAt x rows cols _ (msbmask k) (hlen ▸ position_lt _ _ c r hc hr)
  rw [← hz, hmod] at hrp
  rw [← hz, hdiv, parity8_msbmask k hk] at hcp
  refine ⟨hrp.trans (xorAt_eq_set _ _ _), hcp.trans (xorAt_eq_set _ _ _), ?_⟩
  have hsumRp := byteSum_xorAt (bytes := (derive x rows cols).rp) (by rwa [length_derive_rp]) (msbmask k) (i := r)
  have hsumCp := byteSum_xorAt (bytes := (derive x rows cols).cp) (by rwa [length_derive_cp]) 1 (i := c)
  have hbefore : (derive x rows cols).checksum.toNat = checksumNat (derive x rows cols) := derive_consistent _ _ _
  have hafter : (derive z rows cols).checksum.toNat = checksumNat (derive z rows cols) := derive_consistent _ _ _
  rw [← BitVec.toNat_inj, hbefore, hafter, ← flipped_sum_eq_iff hk]
  simp only [checksumNat, hrp, hcp, derive_rows, derive_cols]
  omega

/-! ### The total parity -/

theorem xorAll_xorAt {bytes : List Byte} {i : Nat} (hi : i < bytes.length) (v : Byte) :
    xorAll (xorAt bytes i v) = xorAll bytes ^^^ v := by
  induction bytes generalizing i with
  | nil => simp at hi
  | cons b bytes ih =>
    cases i with
    | zero => simp only [xorAt, xorAll_cons, BitVec.xor_assoc, BitVec.xor_comm v]
    | succ i => rw [xorAt, xorAll_cons, ih (Nat.lt_of_succ_lt_succ hi), xorAll_cons, BitVec.xor_assoc]

/-- As long as every position has its row and its column, each byte enters the rows once and its parity the columns
once. -/
theorem xorAll_derivePass {rows cols i : Nat} {buf rp cp : List Byte} (hrp : rp.length = rows) (hcp : cp.length = cols)
    (hlen : i + buf.length ≤ rows * cols) :
    xorAll (derivePass rows i buf rp cp).1 = xorAll rp ^^^ xorAll buf ∧
      xorAll (derivePass rows i buf rp cp).2 = xorAll cp ^^^ parity8 (xorAll buf) := by
  induction buf generalizing i with
  | nil => exact ⟨BitVec.xor_zero.symm, BitVec.xor_zero.symm⟩
  | cons b buf ih =>
    rw [List.length_cons] at hlen
    obtain ⟨ihRp, ihCp⟩ := ih (i := i + 1) (by omega)
    have hi : i < rows * cols := by omega
    have hrow : i % rows < rows := Nat.mod_lt _ (Nat.pos_of_lt_mul_right hi)
    have hcol : i / rows < cols := Nat.div_lt_of_lt_mul hi
    rw [derivePass_cons]
    constructor
    · rw [xorAll_xorAt (by rwa [length_derivePass_rp, hrp]), ihRp, xorAll_cons, BitVec.xor_assoc, BitVec.xor_comm b]
    · rw [xorAll_xorAt (by rwa [length_derivePass_cp, hcp]), ihCp, xorAll_cons, parity8_xor, BitVec.xor_assoc,
        BitVec.xor_comm (parity8 b)]

theorem xorAll_replicate_zero (n : Nat) : xorAll (List.replicate n 0) = 0 := by
  induction n with
  | zero => rfl
  | succ n ih => rw [List.replicate_succ, xorAll_cons, ih]; rfl

/-- Both parity vectors give the parity of the whole buffer (40_parity_generator.md R110 (c)). -/
theorem totalParity_derive {rows cols : Half} {x : List Byte} (hlen : x.length = rows.toNat * cols.toNat) :
    xorAll ((derive x rows cols).rp.map parity8) = xorAll (derive x rows cols).cp := by
  obtain ⟨hrp, hcp⟩ := xorAll_derivePass (rp := List.replicate rows.toNat 0) (cp := List.replicate cols.toNat 0)
    List.length_replicate List.length_replicate ((Nat.zero_add _).trans_le hlen.le)
  rw [xorAll_replicate_zero, BitVec.ofNat_eq_ofNat, BitVec.zero_xor] at hrp hcp
  rw [← parity8_xorAll]
  exact (congrArg parity8 hrp).trans hcp.symm

/-- Settles O48: the two total parities are that of the buffer; a row element is at most 255 and a column element at
most 1. -/
theorem totalParityOfDerive : Obligations.TotalParityOfDerive := by
  intro rows cols x hlen
  have hrp : byteSum (derive x rows cols).rp ≤ 255 * rows.toNat :=
    (byteSum_le _).trans_eq (by rw [length_derive_rp])
  have hcp : byteSum (derive x rows cols).cp ≤ cols.toNat :=
    (byteSum_le_length fun _ hx => derive_cp_mem_cases hlen hx).trans_eq (length_derive_cp _ _ _)
  have hchecksum : (derive x rows cols).checksum.toNat = checksumNat (derive x rows cols) := derive_consistent _ _ _
  rw [checksumNat, derive_rows, derive_cols] at hchecksum
  exact ⟨totalParity_derive hlen, by omega, by omega⟩

end Sys2Proof.Proofs
end

section
/-! PROOF. The wire integers in both byte orders (20_memory.md R44). -/

open Sys2Proof Sys2Proof.Machine Sys2Proof.Claims

namespace Sys2Proof.Proofs

/-- Settles O51: the bytes of an encoding and the value of a decoding by their weights, and the two inverses. -/
theorem byteOrderOfIntegers : Obligations.ByteOrderOfIntegers := fun e =>
  ⟨fun v => ⟨length_enc16 e v, fun _ => getD_enc16 e v⟩, fun v => ⟨length_enc32 e v, fun _ => getD_enc32 e v⟩,
    fun m a => (wireNat_two e m a).symm, fun m a => (wireNat_four e m a).symm, enc16_dec16 e, enc32_dec32 e,
    fun _ _ _ => dec16_of_enc16_eq, fun _ _ _ _ _ => dec32_of_enc32_eq⟩

end Sys2Proof.Proofs
end

section
/-! PROOF. The repair engine on the headers `PGEN` derives, and a repair done twice (44_repair.md section 4). -/

open Sys2Proof Sys2Proof.Machine Sys2Proof.Claims

namespace Sys2Proof.Proofs

/-! ### The same flip twice -/

/-- When one state has a bit of the other flipped, the same flip makes it read as the other again. -/
theorem sameBuf_flipped {s t : State} {p k : Nat}
    (ht : ∀ q, t.bufByte q = if q = p then s.bufByte p ^^^ msbmask k else s.bufByte q) (col row : Nat) :
    sameBuf s (flipped t p col row k) := by
  intro q
  rw [flipped_bufByte, ht p, if_pos rfl, ht q, BitVec.xor_assoc, BitVec.xor_self, BitVec.xor_zero]
  split_ifs with hq
  · rw [hq]
  · rfl

/-- `RPR` that answers 1 has flipped the bit the locator named (44_repair.md R180). -/
theorem flipped_of_exec_rpr {s t : State} {ha hb : SlotField} (ht : exec (.rpr ha hb) s = .next t)
    (hresult : t.result = 1) :
    ∃ a b col row k, namesSlot ha a ∧ namesSlot hb b ∧ locate (s.header a) (s.header b) = .flip col row k ∧
      col * (s.header a).rows.toNat + row < s.cfg.bufBytes ∧
      t = flipped s (col * (s.header a).rows.toNat + row) col row k := by
  cases exec_effect _ s t ht with
  | failed => subst t; cases hresult
  | answered v _ hv => subst t; rw [State.done_result, hv ha hb rfl] at hresult; cases hresult
  | loaded _ _ _ _ _ hi => simp at hi
  | serialized _ _ _ hi => cases hi
  | flipped ha hb a b col row k hsa hsb hi hl hm ht =>
    cases hi
    obtain ⟨-, -, -, -, -, -, hk, -⟩ := locate_flip _ _ col row k hl
    rw [flipAddr_eq _ _ _ hk] at hm ht
    rw [flipMask_eq _ hk] at ht
    exact ⟨a, b, col, row, k, (slotOf_eq_some_iff ha a).mp hsa, (slotOf_eq_some_iff hb b).mp hsb, hl, hm, ht⟩

/-- Settles O59: the flip leaves both headers, so the locator answers the same flip again, which undoes the first. -/
theorem staleRepairUndoesIt : Obligations.StaleRepairUndoesIt := by
  intro s t ha hb ht _ hresult
  obtain ⟨a, b, col, row, k, hna, hnb, hl, hlt, rfl⟩ := flipped_of_exec_rpr ht hresult
  obtain ⟨-, hslots, -, hcfg, -⟩ := flipped_frame s (col * (s.header a).rows.toNat + row) col row k
  rw [← hslots, ← hslots b] at hl
  rw [← hcfg, ← hslots] at hlt
  have hu := exec_rpr_of_flip hna hnb hl hlt
  rw [hslots] at hu
  exact ⟨_, hu, ⟨rfl, rfl, rfl⟩, sameBuf_flipped (flipped_bufByte s _ _ _ _) _ _, rfl⟩

/-! ### PGEN, a flipped bit, PGEN, RPR -/

/-- A buffer with one byte of BUF changed. -/
theorem buffer_setBuf (s : State) {rows cols : Half} {p : Nat} (hp : p < rows.toNat * cols.toNat) (w : Byte) :
    (s.setBuf p (s.bufByte p ^^^ w)).buffer rows cols = xorAt (s.buffer rows cols) p w := by
  refine ext_getD _ _ (by simp [length_buffer]) fun q hq => ?_
  rw [length_buffer] at hq
  rw [getD_buffer _ _ _ q hq, State.setBuf_bufByte, getD_xorAt, getD_buffer _ _ _ q hq, length_buffer]
  by_cases hqp : q = p
  · rw [if_pos hqp, if_pos ⟨hqp, hp⟩, hqp]
  · rw [if_neg hqp, if_neg fun h => hqp h.1]

theorem buffer_of_sameBuf {s t : State} (h : sameBuf s t) (rows cols : Half) :
    t.buffer rows cols = s.buffer rows cols :=
  memRead_congr _ _ _ _ fun _ _ => h _

/-- Settles O56: the second header is derived from the buffer with one bit flipped, so the locator names that bit. -/
theorem singleBitRepairedByCommands : Obligations.SingleBitRepairedByCommands := by
  intro s ha hb a b rows cols c r k hna hnb hab hrows hcols hc hr hk
  have hdims := badDims_of_fits (by omega) hrows (by omega) hcols
  have hp := position_lt _ _ c r hc hr
  obtain ⟨t, ht, htHeader, -, -, htBuf, -, -, htCfg, -⟩ := exec_pgen hna s hdims
  obtain ⟨u, hu, huHeader, -, huOther, huBuf, -, -, huCfg, -⟩ :=
    exec_pgen hnb (t.setBuf (c * rows.toNat + r) (t.bufByte (c * rows.toNat + r) ^^^ msbmask k)) (htCfg ▸ hdims)
  have huTrusted : u.header a = derive (s.buffer rows cols) rows cols := by
    rw [huOther a hab, State.setBuf_header, htHeader]
  have hl : locate (u.header a) (u.header b) = .flip c r k := by
    rw [huTrusted, huHeader, buffer_setBuf _ hp, buffer_of_sameBuf htBuf]
    exact locate_derive_xorAt (length_buffer s rows cols) hc hr hk
  have hv := exec_rpr_of_flip hna hnb hl (by
    rw [huTrusted, derive_rows, huCfg, State.setBuf_cfg, htCfg]
    exact hp.trans_le (dims_le_bufBytes hrows hcols))
  rw [huTrusted, derive_rows] at hv
  refine ⟨t, u, _, ht, hu, hv, ⟨rfl, rfl, rfl⟩, sameBuf_flipped (fun q => ?_) c r,
    locWord_toNat hk (hc.trans cols.isLt) (hr.trans rows.isLt)⟩
  rw [huBuf, State.setBuf_bufByte, htBuf, htBuf]

/-! ### Derived headers of the same dimensions -/

/-- The scan finds nothing: the sequences are equal. -/
theorem eq_of_diffIndices_nil {xs ys : List Byte} (hlen : xs.length = ys.length) (h : diffIndices xs ys = []) :
    xs = ys := by
  refine ext_getD xs ys hlen fun j hj => by_contra fun hne => ?_
  have hmem := (mem_diffIndices xs ys hlen j).mpr ⟨hj, hne⟩
  rw [h] at hmem
  exact List.not_mem_nil hmem

/-- The scan finds one index: the sequences are equal but for the element there. -/
theorem eq_xorAt_of_diffIndices {xs ys : List Byte} {i : Nat} (hlen : xs.length = ys.length)
    (h : diffIndices xs ys = [i]) : i < xs.length ∧ ∃ v, v ≠ 0 ∧ ys = xorAt xs i v := by
  have hmem := mem_diffIndices xs ys hlen
  rw [h] at hmem
  obtain ⟨hi, hne⟩ := (hmem i).mp (List.mem_singleton_self i)
  refine ⟨hi, xs.getD i 0 ^^^ ys.getD i 0, mt BitVec.xor_eq_zero_iff.mp hne,
    ext_getD _ _ (by rw [length_xorAt, hlen]) fun j hj => ?_⟩
  rw [getD_xorAt]
  split_ifs with hji
  · rw [hji.1, ← BitVec.xor_assoc, BitVec.xor_self, BitVec.zero_xor]
  · by_contra hne'
    exact hji ⟨List.mem_singleton.mp ((hmem j).mpr ⟨hlen ▸ hj, Ne.symm hne'⟩), hi⟩

/-- One differing column alone would change the total parity of the columns but not that of the rows. -/
theorem derive_rp_differs {rows cols : Half} {x y : List Byte} {col : Nat} (hx : x.length = rows.toNat * cols.toNat)
    (hy : y.length = rows.toNat * cols.toNat)
    (hcol : diffIndices (derive x rows cols).cp (derive y rows cols).cp = [col]) :
    diffIndices (derive x rows cols).rp (derive y rows cols).rp ≠ [] := by
  intro hrow
  have hrp := eq_of_diffIndices_nil (by simp) hrow
  obtain ⟨hlt, v, hv, hcp⟩ := eq_xorAt_of_diffIndices (by simp) hcol
  have htotal : xorAll (derive y rows cols).cp = xorAll (derive x rows cols).cp := by
    rw [← totalParity_derive hx, ← totalParity_derive hy, hrp]
  rw [hcp, xorAll_xorAt hlt] at htotal
  exact hv (BitVec.xor_right_inj _ |>.mp (htotal.trans BitVec.xor_zero.symm))

/-- Settles O60: a derived header is consistent, the dimensions are the same, and one differing column comes with a
differing row. -/
theorem derivedHeadersNeverNoRow : Obligations.DerivedHeadersNeverNoRow := by
  intro rows cols x y hx hy
  have hck : confirmChecksum (derive x rows cols) = true :=
    (confirmChecksum_iff (derive_wellShaped _ _ _)).mpr (derive_consistent _ _ _)
  rcases locate_cases (derive x rows cols) (derive y rows cols) with ⟨hck', -⟩ | ⟨-, -, e⟩ | ⟨-, -, hdims, -⟩ |
    ⟨-, -, e⟩ | ⟨-, -, e⟩ | ⟨col, -, hcol, ⟨hrow, -⟩ | ⟨-, e⟩ | ⟨row, -, ⟨-, e⟩ | ⟨-, e⟩⟩⟩
  · rw [hck] at hck'; cases hck'
  · rw [e]; decide
  · simp [derive_rows, derive_cols] at hdims
  · rw [e]; decide
  · rw [e]; decide
  · exact absurd hrow (derive_rp_differs hx hy hcol)
  · rw [e]; decide
  · rw [e]; decide
  · rw [e]; simp

end Sys2Proof.Proofs
end
